-- ==== Sys2Proof/Word.lean ====
section
/-! DEFINITION. The words on BPCORE's interface (30_encoding.md R81, R86, R95). Counters, indices and
history values are plain naturals (00_scope.md R10); only what travels on the interface is a bit vector. -/

namespace Sys2Proof

/-- The 64-bit A field of a command: a branch address, or the entry index of an RD (R86). -/
abbrev Address := BitVec 64

/-- A command word, bit i of the word being bit i of the vector (R81, 00_scope.md R9). -/
abbrev CommandWord := BitVec 72

/-- A response word (R95). -/
abbrev ResponseWord := BitVec 66

end Sys2Proof
end

