-- ==== Sys2Proof/Config.lean ====
section
/-! DEFINITION. The configuration of one BPCORE instance (00_scope.md R2, R7, R8). The OPEN parameters of R7
are fields here, so a claim about every configuration covers every value of them. The spec leaves no result
open once a configuration is fixed (30_encoding.md R92, 60_exceptions.md R200), so there is no free value. -/

namespace Sys2Proof

/-- The closed set of predictor kinds (R2). -/
inductive Kind where
  | smith
  | bimodal
  | gshare
  | hybrid
deriving DecidableEq, Repr

/-- A kind with exactly the parameters it has (R7, the "kinds" column; the order is that of R3's identity
strings, then CB_T, CB_C, CI). -/
inductive Params where
  /-- CB_S. -/
  | smith (cbS : Nat)
  /-- M, CB_T. -/
  | bimodal (m cbT : Nat)
  /-- M, N, CB_T. -/
  | gshare (m n cbT : Nat)
  /-- K, N, M1, M2, CB_T, CB_C, CI. -/
  | hybrid (k n m1 m2 cbT cbC ci : Nat)
deriving DecidableEq, Repr

/-- A configuration: the kind with its parameters, and the two bounds of the implementation (R7). -/
structure Config where
  params : Params
  /-- MAX_COUNTER_BITS. -/
  maxCounterBits : Nat
  /-- MAX_INDEX_BITS. -/
  maxIndexBits : Nat
deriving DecidableEq, Repr

/-- The configuration of `State.reset` alone. DESIGN CHOICE (log entry 2): the spec leaves the configuration
open (R7), and `State.reset` is one plain state. The parameters are those of program P3 (95_test_vectors.md).
Unsafe for a claim that rested on these values; no claim does. -/
def Config.sample : Config where
  params := .hybrid 1 2 2 2 3 2 1
  maxCounterBits := 64
  maxIndexBits := 62

end Sys2Proof
end

