-- ==== Sys2Proof/Machine/Counter.lean ====
section
/-! DEFINITION. The bit utilities and the saturating counter (40_counter.md), on naturals (00_scope.md R10,
10_state.md R30). -/

namespace Sys2Proof.Machine

/-- POW2 (R110). -/
def pow2 (x : Nat) : Nat := 2 ^ x

/-- LOWMASK (R111): the mask of the bits below w. -/
def lowmask (w : Nat) : Nat := pow2 w - 1

/-- BITMASK (R112): the mask of bit j alone. -/
def bitMask (j : Nat) : Nat := pow2 j

/-- THRESHOLD of a counter of width b (10_state.md R31). -/
def threshold (b : Nat) : Nat := pow2 (b - 1)

/-- CEILING of a counter of width b (10_state.md R31). -/
def ceiling (b : Nat) : Nat := pow2 b - 1

/-- CTR.INC (R113). -/
def ctrInc (b v : Nat) : Nat := if v = ceiling b then v else v + 1

/-- CTR.DEC (R114). It does not depend on the width. -/
def ctrDec (v : Nat) : Nat := if v = 0 then 0 else v - 1

/-- CTR.TAKEN (R115). -/
def ctrTaken (b v : Nat) : Bool := threshold b ≤ v

/-- CTR.UPDATE (R116): train the counter with the outcome `t`. -/
def ctrUpdate (b v : Nat) (t : Bool) : Nat := if t then ctrInc b v else ctrDec v

end Sys2Proof.Machine
end

