-- ==== Sys2Proof/Syntax.lean ====
section
/-! DEFINITION. The commands of spec/opcode_table.json, one constructor a row, each with every field of its
word that is not OP (30_encoding.md R81 to R90). A reserved field stands in the syntax because a command with
a non-zero one is still a command: it gets an error response (R101), and the order of the checks shows. -/

namespace Sys2Proof

/-- The selector of an RD (R89), the two reserved codes included. -/
inductive Sel where
  | smithCtr
  | gshareTable
  | chooser
  | hybGshareTable
  | hybBimodalTable
  | ghr
  | reserved110
  | reserved111
deriving DecidableEq, Repr

/-- A command. `sel`, `r`, `t`, `a` are the fields SEL [68:66], R [65], T [64] and A [63:0]. -/
inductive Instr where
  /-- OP 000; every field must be 0 (R90, R180). -/
  | nop (sel : BitVec 3) (r t : Bool) (a : Address)
  /-- OP 001; `t` is the outcome, `a` the branch address; SEL and R must be 0 (42_smith.md R151). -/
  | puSmith (sel : BitVec 3) (r t : Bool) (a : Address)
  /-- OP 010; operands as for `puSmith` (41_gshare.md R136). -/
  | puGshare (sel : BitVec 3) (r t : Bool) (a : Address)
  /-- OP 011; operands as for `puSmith` (43_hybrid.md R164). -/
  | puHybrid (sel : BitVec 3) (r t : Bool) (a : Address)
  /-- OP 100; `sel` and the entry index `a` are operands, R and T must be 0 (44_interface_ops.md R182). -/
  | rd (sel : Sel) (r t : Bool) (a : Address)
  /-- OP 101, reserved (R91). -/
  | reservedOp101 (sel : BitVec 3) (r t : Bool) (a : Address)
  /-- OP 110, reserved (R91). -/
  | reservedOp110 (sel : BitVec 3) (r t : Bool) (a : Address)
  /-- OP 111, reserved (R91). -/
  | reservedOp111 (sel : BitVec 3) (r t : Bool) (a : Address)
deriving DecidableEq, Repr

/-- The command errors (60_exceptions.md R201), in the order of their codes. -/
inductive CmdError where
  | rsvdOp
  | wrongKind
  | rsvdField
  | rsvdSel
  | selAbsent
  | indexRange
deriving DecidableEq, Repr

end Sys2Proof
end

