-- ==== Sys2Proof/Machine/Configuration.lean ====
section
/-! DEFINITION. What the configuration fixes: each parameter by its name, the legality check, and the state
elements a kind has (00_scope.md R7, 60_exceptions.md R203, 30_encoding.md R89). -/

namespace Sys2Proof

open Machine

/-- The kind of a configuration (R2). -/
def Config.kind (c : Config) : Kind :=
  match c.params with
  | .smith _ => .smith
  | .bimodal _ _ => .bimodal
  | .gshare _ _ _ => .gshare
  | .hybrid _ _ _ _ _ _ _ => .hybrid

/-- CB_S; 0 for a kind that has no such parameter, where no rule reads it (the same holds of each accessor
below). -/
def Config.cbS (c : Config) : Nat :=
  match c.params with
  | .smith b => b
  | .bimodal _ _ => 0
  | .gshare _ _ _ => 0
  | .hybrid _ _ _ _ _ _ _ => 0

/-- M, the index width of the prediction table T (R7). -/
def Config.m (c : Config) : Nat :=
  match c.params with
  | .smith _ => 0
  | .bimodal m _ => m
  | .gshare m _ _ => m
  | .hybrid _ _ _ _ _ _ _ => 0

/-- N, the history width: that of G, or of GG in a HYBRID instance; BIMODAL is GSHARE with N = 0
(41_gshare.md R130). -/
def Config.n (c : Config) : Nat :=
  match c.params with
  | .smith _ => 0
  | .bimodal _ _ => 0
  | .gshare _ n _ => n
  | .hybrid _ n _ _ _ _ _ => n

/-- CB_T, the width of every prediction-table counter (R7). -/
def Config.cbT (c : Config) : Nat :=
  match c.params with
  | .smith _ => 0
  | .bimodal _ b => b
  | .gshare _ _ b => b
  | .hybrid _ _ _ _ b _ _ => b

/-- K, the chooser index width (R7). -/
def Config.k (c : Config) : Nat :=
  match c.params with
  | .smith _ => 0
  | .bimodal _ _ => 0
  | .gshare _ _ _ => 0
  | .hybrid k _ _ _ _ _ _ => k

/-- M1, the index width of the Gshare component (R7). -/
def Config.m1 (c : Config) : Nat :=
  match c.params with
  | .smith _ => 0
  | .bimodal _ _ => 0
  | .gshare _ _ _ => 0
  | .hybrid _ _ m1 _ _ _ _ => m1

/-- M2, the index width of the Bimodal component (R7). -/
def Config.m2 (c : Config) : Nat :=
  match c.params with
  | .smith _ => 0
  | .bimodal _ _ => 0
  | .gshare _ _ _ => 0
  | .hybrid _ _ _ m2 _ _ _ => m2

/-- CB_C, the width of every chooser counter (R7). -/
def Config.cbC (c : Config) : Nat :=
  match c.params with
  | .smith _ => 0
  | .bimodal _ _ => 0
  | .gshare _ _ _ => 0
  | .hybrid _ _ _ _ _ b _ => b

/-- CI, the reset value of every chooser counter (R7). -/
def Config.ci (c : Config) : Nat :=
  match c.params with
  | .smith _ => 0
  | .bimodal _ _ => 0
  | .gshare _ _ _ => 0
  | .hybrid _ _ _ _ _ _ ci => ci

/-- A counter width the implementation accepts (R203). -/
def Config.counterWidthOk (c : Config) (b : Nat) : Bool := 1 ≤ b && b ≤ c.maxCounterBits

/-- An index width the implementation accepts (R203). -/
def Config.indexWidthOk (c : Config) (w : Nat) : Bool := w ≤ c.maxIndexBits

/-- legal(cfg) of 60_exceptions.md R203. -/
def Config.legal (c : Config) : Bool :=
  1 ≤ c.maxCounterBits && c.maxCounterBits ≤ 64 && c.maxIndexBits ≤ 62 &&
    match c.params with
    | .smith cbS => c.counterWidthOk cbS
    | .bimodal m cbT => c.indexWidthOk m && c.counterWidthOk cbT
    | .gshare m n cbT => c.indexWidthOk m && n ≤ m && c.counterWidthOk cbT
    | .hybrid k n m1 m2 cbT cbC ci =>
      c.indexWidthOk k && c.indexWidthOk m1 && c.indexWidthOk m2 && n ≤ m1 &&
        c.counterWidthOk cbT && c.counterWidthOk cbC && ci ≤ ceiling cbC

/-- The "present in kind" column of 30_encoding.md R89. -/
def Sel.present : Sel → Kind → Bool
  | .smithCtr, k => k == .smith
  | .gshareTable, k => k == .gshare || k == .bimodal
  | .chooser, k => k == .hybrid
  | .hybGshareTable, k => k == .hybrid
  | .hybBimodalTable, k => k == .hybrid
  | .ghr, k => k == .gshare || k == .bimodal || k == .hybrid
  | .reserved110, _ => false
  | .reserved111, _ => false

/-- The "size" column of 30_encoding.md R89: how many indices are legal. A reserved code has none. -/
def Sel.size : Sel → Config → Nat
  | .smithCtr, _ => 1
  | .gshareTable, c => pow2 c.m
  | .chooser, c => pow2 c.k
  | .hybGshareTable, c => pow2 c.m1
  | .hybBimodalTable, c => pow2 c.m2
  | .ghr, _ => 1
  | .reserved110, _ => 0
  | .reserved111, _ => 0

end Sys2Proof
end

