-- ==== Sys2Proof/WellFormed.lean ====
section
/-! DEFINITION. Which commands are well formed, whatever the configuration: an operation that is not reserved,
with every field it does not use at 0 and no reserved selector (30_encoding.md R90, R91). The checks that need
the configuration are in Decode.lean (R94, R101). -/

namespace Sys2Proof

/-- SEL codes 110 and 111 (R89). -/
def Sel.isReserved : Sel → Bool
  | .smithCtr | .gshareTable | .chooser | .hybGshareTable | .hybBimodalTable | .ghr => false
  | .reserved110 | .reserved111 => true

/-- The fields of R90 are 0, the operation and the selector are not reserved. -/
def Instr.wellFormed : Instr → Bool
  | .nop sel r t a => sel == 0 && !r && !t && a == 0
  | .puSmith sel r _ _ => sel == 0 && !r
  | .puGshare sel r _ _ => sel == 0 && !r
  | .puHybrid sel r _ _ => sel == 0 && !r
  | .rd sel r t _ => !r && !t && !sel.isReserved
  | .reservedOp101 _ _ _ _ => false
  | .reservedOp110 _ _ _ _ => false
  | .reservedOp111 _ _ _ _ => false

end Sys2Proof
end

