-- ==== Sys2Proof/Decode.lean ====
section
/-! DEFINITION. Decoding (30_encoding.md R81 to R94, R101). `decode` splits a 72-bit word into its fields by OP
alone and is total: the eight OP values are the eight rows of the opcode table. `check` is the legality check of
R101, which needs the configuration, and rejects by name. `encode` is written from the same table. -/

namespace Sys2Proof

/-- OP = w[71:69] (R82). -/
def CommandWord.op (w : CommandWord) : BitVec 3 := w.extractLsb' 69 3

/-- SEL = w[68:66] (R83). -/
def CommandWord.sel (w : CommandWord) : BitVec 3 := w.extractLsb' 66 3

/-- R = w[65] (R84). -/
def CommandWord.r (w : CommandWord) : Bool := w.getLsbD 65

/-- T = w[64] (R85). -/
def CommandWord.t (w : CommandWord) : Bool := w.getLsbD 64

/-- A = w[63:0] (R86). -/
def CommandWord.a (w : CommandWord) : Address := w.extractLsb' 0 64

/-- The selector a SEL code stands for (R89). -/
def Sel.ofBits (b : BitVec 3) : Sel :=
  match b.toNat with
  | 0 => .smithCtr
  | 1 => .gshareTable
  | 2 => .chooser
  | 3 => .hybGshareTable
  | 4 => .hybBimodalTable
  | 5 => .ghr
  | 6 => .reserved110
  | _ => .reserved111

/-- The SEL code of a selector (R89). -/
def Sel.toBits : Sel → BitVec 3
  | .smithCtr => 0b000#3
  | .gshareTable => 0b001#3
  | .chooser => 0b010#3
  | .hybGshareTable => 0b011#3
  | .hybBimodalTable => 0b100#3
  | .ghr => 0b101#3
  | .reserved110 => 0b110#3
  | .reserved111 => 0b111#3

/-- The command a word stands for (R88): one row of the opcode table for each OP. -/
def decode (w : CommandWord) : Instr :=
  match w.op.toNat with
  | 0 => .nop w.sel w.r w.t w.a
  | 1 => .puSmith w.sel w.r w.t w.a
  | 2 => .puGshare w.sel w.r w.t w.a
  | 3 => .puHybrid w.sel w.r w.t w.a
  | 4 => .rd (Sel.ofBits w.sel) w.r w.t w.a
  | 5 => .reservedOp101 w.sel w.r w.t w.a
  | 6 => .reservedOp110 w.sel w.r w.t w.a
  | _ => .reservedOp111 w.sel w.r w.t w.a

/-- The OP value of a command (R88). -/
def Instr.op : Instr → BitVec 3
  | .nop _ _ _ _ => 0b000#3
  | .puSmith _ _ _ _ => 0b001#3
  | .puGshare _ _ _ _ => 0b010#3
  | .puHybrid _ _ _ _ => 0b011#3
  | .rd _ _ _ _ => 0b100#3
  | .reservedOp101 _ _ _ _ => 0b101#3
  | .reservedOp110 _ _ _ _ => 0b110#3
  | .reservedOp111 _ _ _ _ => 0b111#3

/-- The five fields laid side by side, OP at the top (R81). -/
def packWord (op sel : BitVec 3) (r t : Bool) (a : Address) : CommandWord :=
  op ++ sel ++ BitVec.ofBool r ++ BitVec.ofBool t ++ a

/-- The word of a command (R81, R88, R89). -/
def encode (i : Instr) : CommandWord :=
  match i with
  | .nop sel r t a => packWord i.op sel r t a
  | .puSmith sel r t a => packWord i.op sel r t a
  | .puGshare sel r t a => packWord i.op sel r t a
  | .puHybrid sel r t a => packWord i.op sel r t a
  | .rd sel r t a => packWord i.op sel.toBits r t a
  | .reservedOp101 sel r t a => packWord i.op sel r t a
  | .reservedOp110 sel r t a => packWord i.op sel r t a
  | .reservedOp111 sel r t a => packWord i.op sel r t a

/-- The reserved-field check of a PU command (R90): SEL and R. -/
def puFieldCheck (sel : BitVec 3) (r : Bool) : Option CmdError :=
  if sel ≠ 0 ∨ r = true then some .rsvdField else none

/-- The legality check of R101 on a split word: the first check that fails, or none. -/
def check (c : Config) : Instr → Option CmdError
  | .reservedOp101 _ _ _ _ => some .rsvdOp
  | .reservedOp110 _ _ _ _ => some .rsvdOp
  | .reservedOp111 _ _ _ _ => some .rsvdOp
  | .puSmith sel r _ _ =>
    if c.kind ≠ .smith then some .wrongKind else puFieldCheck sel r
  | .puGshare sel r _ _ =>
    if c.kind ≠ .gshare ∧ c.kind ≠ .bimodal then some .wrongKind else puFieldCheck sel r
  | .puHybrid sel r _ _ =>
    if c.kind ≠ .hybrid then some .wrongKind else puFieldCheck sel r
  | .nop sel r t a =>
    if sel ≠ 0 ∨ r = true ∨ t = true ∨ a ≠ 0 then some .rsvdField else none
  | .rd sel r t a =>
    if r = true ∨ t = true then some .rsvdField
    else if sel.isReserved then some .rsvdSel
    else if ¬ sel.present c.kind then some .selAbsent
    else if sel.size c ≤ a.toNat then some .indexRange
    else none

/-- decode(w, cfg) of R101: the command, or the error it is rejected with. -/
def decodeFor (c : Config) (w : CommandWord) : Except CmdError Instr :=
  match check c (decode w) with
  | some e => .error e
  | none => .ok (decode w)

/-- What the decoder reads from the instruction whose bits are `w`, numbered as the opcode table numbers them.
A command is ONE parallel 72-bit word (20_memory.md R62), so the table's bit i is bit i of the word, and there is
no byte order to apply. Bits above `nbits` are 0; a number too wide for its width is refused. -/
def decodeTableWord (nbits w : Nat) : Option Instr :=
  if nbits ≤ 72 ∧ w < 2 ^ nbits then some (decode (BitVec.ofNat 72 w)) else none

end Sys2Proof
end

