-- ==== Sys2Proof/Machine/Flags.lean ====
section
/-! DEFINITION. The response word and its fields (30_encoding.md R95). BPCORE has no flags or condition codes:
the bits ERR and PRED of a response are its only per-command outputs, and nothing reads them back
(10_state.md R41). -/

namespace Sys2Proof.Machine

/-- respond(err, pred, data): the word with ERR at bit 65, PRED at bit 64, DATA below (R95). -/
def responseWord (err pred : Bool) (data : BitVec 64) : ResponseWord :=
  BitVec.ofBool err ++ BitVec.ofBool pred ++ data

/-- ERR, bit 65. -/
def errBit (w : ResponseWord) : Bool := w.getLsbD 65

/-- PRED, bit 64. -/
def predBit (w : ResponseWord) : Bool := w.getLsbD 64

/-- DATA, bits [63:0]. -/
def dataField (w : ResponseWord) : BitVec 64 := w.extractLsb' 0 64

/-- zext_64(v) (00_scope.md R11). Every value the block reads out is below 2^64 (log entry 9). -/
def zext64 (v : Nat) : BitVec 64 := BitVec.ofNat 64 v

/-- The code of a command error (60_exceptions.md R201). -/
def errorCode : CmdError → Nat
  | .rsvdOp => 1
  | .wrongKind => 2
  | .rsvdField => 3
  | .rsvdSel => 4
  | .selAbsent => 5
  | .indexRange => 6

/-- The response of a rejected command (60_exceptions.md R202). -/
def errorWord (e : CmdError) : ResponseWord := responseWord true false (zext64 (errorCode e))

end Sys2Proof.Machine
end

