-- ==== Sys2Proof/Machine/Operands.lean ====
section
/-! DEFINITION. How a command's address becomes an index, and how an outcome enters a history register
(41_gshare.md R131, R132, R134; 43_hybrid.md R162). These are the operand forms of BPCORE: no register operand
and no memory operand exists (30_encoding.md R87). -/

namespace Sys2Proof.Machine

/-- PC_INDEX (R131): bits A[w+1:2]. The shift is logical; the sign of A never matters (20_memory.md R63). -/
def pcIndex (a : Address) (w : Nat) : Nat := (a >>> 2).toNat &&& lowmask w

/-- GET_INDEX (R132): bit j of the history is XORed with bit j of the masked address. -/
def gshareIndex (a : Address) (g m n : Nat) : Nat :=
  if 0 < n then g ^^^ pcIndex a m else pcIndex a m

/-- UPDATE_HISTORY (R134): the newest outcome enters at bit n - 1. -/
def ghrUpdate (g n : Nat) (t : Bool) : Nat :=
  if n = 0 then 0
  else if t then (g >>> 1) ||| bitMask (n - 1)
  else g >>> 1

/-- CHOOSER_PC_SHIFT (00_scope.md R7; 92_eei_decisions.md D18). -/
def chooserPcShift : Nat := 2

/-- CHOOSER_INDEX (R162): no history enters it. -/
def chooserIndex (a : Address) (k : Nat) : Nat := (a >>> chooserPcShift).toNat &&& lowmask k

end Sys2Proof.Machine
end

