-- ==== Sys2Proof/Machine/Table.lean ====
section
/-! DEFINITION. A table of counter cells (10_state.md R33, R34; 20_memory.md R61, R66) as plain data: the
entries that differ from the table's reset value, by rising index (log entry 8). `fill` is what an unlisted
index reads as: the reset value of every entry of that table (10_state.md R45, R47, R48). -/

namespace Sys2Proof.Machine

/-- Index and value of each entry that differs from the fill, by rising index. -/
abbrev Table := List (Nat × Nat)

/-- T[i]. -/
def Table.read (fill : Nat) : Table → Nat → Nat
  | [], _ => fill
  | (j, v) :: rest, i => if i = j then v else Table.read fill rest i

/-- The entry i put in its place. -/
def Table.insert (t : Table) (i v : Nat) : Table :=
  match t with
  | [] => [(i, v)]
  | (j, u) :: rest =>
    if i < j then (i, v) :: (j, u) :: rest
    else if i = j then (i, v) :: rest
    else (j, u) :: Table.insert rest i v

/-- The entry i taken out, so that i reads as the fill. -/
def Table.erase (t : Table) (i : Nat) : Table := t.filter fun e => e.1 != i

/-- T[i] <- v, keeping the canonical form. -/
def Table.write (fill : Nat) (t : Table) (i v : Nat) : Table :=
  if v = fill then t.erase i else t.insert i v

/-- The canonical form from index `lo` on: indices rise and are below `size`, no value is the fill, and every
value is below `bound`. -/
def Table.wfFrom (fill size bound : Nat) : Nat → Table → Bool
  | _, [] => true
  | lo, (j, v) :: rest =>
    lo ≤ j && j < size && v != fill && v < bound && Table.wfFrom fill size bound (j + 1) rest

/-- The canonical form of a table of `size` cells whose values are below `bound`. -/
def Table.wf (fill size bound : Nat) (t : Table) : Bool := Table.wfFrom fill size bound 0 t

end Sys2Proof.Machine
end

