-- ==== Sys2Proof/Machine/ResetValues.lean ====
section
/-! DEFINITION. The reset value of every state element (10_state.md R44 to R48, R50; 70_reset_and_hazards.md
R230). An element the kind does not have holds 0 or no entry (DESIGN CHOICE, log entry 11). -/

namespace Sys2Proof.Machine

/-- S (R44). -/
def resetCtrS (c : Config) : Nat :=
  match c.kind with
  | .smith => threshold c.cbS
  | .bimodal => 0
  | .gshare => 0
  | .hybrid => 0

/-- What every entry of T, TG and TB holds after reset (R45, R48). -/
def fillT (c : Config) : Nat := threshold c.cbT

/-- What every entry of C holds after reset (R47). -/
def fillC (c : Config) : Nat := c.ci

/-- A table right after reset: every entry at its fill (R230). -/
def resetTable : Table := []

/-- G and GG (R46, R48). -/
def resetGhr : Nat := 0

end Sys2Proof.Machine
end

