-- ==== Sys2Proof/Machine/State.lean ====
section
/-! DEFINITION. The state of a BPCORE instance as plain data, the reasons a step can stop, and the state right
after reset (10_state.md, 70_reset_and_hazards.md). INVENTORY.md lists each field with its rule. -/

namespace Sys2Proof.Machine

/-- What the client has presented and the block has not yet taken (30_encoding.md R80, log entry 3). -/
inductive Request where
  /-- The reset input (70_reset_and_hazards.md R230, R232). -/
  | reset
  /-- One command word (30_encoding.md R81). -/
  | command (w : CommandWord)
deriving DecidableEq, Repr

/-- A BPCORE instance. Counter and history values are naturals (00_scope.md R10). -/
structure State where
  /-- The configuration, an argument of the machine that no step writes (00_scope.md R8, 10_state.md R42). It stands
  here because the types of `exec` and `step` have no other place for it (log entry 1); `machineOf` of Instance.lean
  takes it as an argument and has a state without it. -/
  cfg : Config
  /-- Whether reset has been applied: before the first reset the state has no value (10_state.md R49). -/
  resetDone : Bool
  /-- S, the Smith counter (10_state.md R32). -/
  ctrS : Nat
  /-- T, the prediction table of GSHARE and BIMODAL (10_state.md R33). -/
  tabT : Table
  /-- G, the global history register of GSHARE and BIMODAL (10_state.md R33, R35). -/
  ghrG : Nat
  /-- C, the chooser table of HYBRID (10_state.md R34). -/
  tabC : Table
  /-- TG, the table of HYBRID's Gshare component (10_state.md R34). -/
  tabTG : Table
  /-- GG, the history register of HYBRID's Gshare component (10_state.md R34, R35). -/
  ghrGG : Nat
  /-- TB, the table of HYBRID's Bimodal component (10_state.md R34). -/
  tabTB : Table
  /-- GB, the history register of HYBRID's Bimodal component: it has no bits (10_state.md R35). -/
  ghrGB : BitVec 0
  /-- The request channel and the reset input, oldest first. -/
  requests : List Request
  /-- The response channel: every word emitted, oldest first (44_interface_ops.md R184, log entry 4). -/
  responses : List ResponseWord
deriving DecidableEq, Repr

/-- The machine never faults: every predictor operation is total (60_exceptions.md R200) and a rejected
command is answered, not stopped on (R202, R206). So there is no reason a step could fault with. -/
inductive Fault where
deriving DecidableEq, Repr

/-- The reasons for which a request has no step. -/
inductive Refusal where
  /-- Raised by an arm of `exec` whose instruction has no meaning yet; no arm does so now. Safe. -/
  | notModelled (mnemonic : String)
  /-- Raised by every command presented before the first reset: "a model refuses it" (10_state.md R49,
  70_reset_and_hazards.md R231). Safe. -/
  | beforeFirstReset
  /-- Raised by every command and every reset of an instance whose configuration is illegal: "no instance
  exists, reset does not produce a state, and no command has a step" (60_exceptions.md R203). Safe. -/
  | illegalConfiguration
deriving DecidableEq, Repr

/-- The instance of configuration `c` right after reset, with nothing presented and nothing emitted
(70_reset_and_hazards.md R230). -/
def State.resetOf (c : Config) : State where
  cfg := c
  resetDone := true
  ctrS := resetCtrS c
  tabT := resetTable
  ghrG := resetGhr
  tabC := resetTable
  tabTG := resetTable
  ghrGG := resetGhr
  tabTB := resetTable
  ghrGB := 0#0
  requests := []
  responses := []

/-- The machine right after reset, for the configuration of log entry 2. -/
def State.reset : State := State.resetOf Config.sample

end Sys2Proof.Machine
end

