-- ==== Sys2Proof/Machine/Ops.lean ====
section
/-! DEFINITION. The operations the meanings share: the accessors of the tables, UPDATE_TABLE, the response, the
rejection of a command (BPCORE's only exception, and there is no return from one: 60_exceptions.md R206, R207),
the reset, and taking the next request. -/

namespace Sys2Proof.Machine

/-- T[i]. -/
def State.readT (s : State) (i : Nat) : Nat := s.tabT.read (fillT s.cfg) i

/-- TG[i]. -/
def State.readTG (s : State) (i : Nat) : Nat := s.tabTG.read (fillT s.cfg) i

/-- TB[i]. -/
def State.readTB (s : State) (i : Nat) : Nat := s.tabTB.read (fillT s.cfg) i

/-- C[i]. -/
def State.readC (s : State) (i : Nat) : Nat := s.tabC.read (fillC s.cfg) i

/-- UPDATE_TABLE on T (41_gshare.md R135). -/
def State.trainT (s : State) (i : Nat) (t : Bool) : State :=
  { s with tabT := s.tabT.write (fillT s.cfg) i (ctrUpdate s.cfg.cbT (s.readT i) t) }

/-- UPDATE_TABLE on TG (41_gshare.md R135, 43_hybrid.md R161). -/
def State.trainTG (s : State) (i : Nat) (t : Bool) : State :=
  { s with tabTG := s.tabTG.write (fillT s.cfg) i (ctrUpdate s.cfg.cbT (s.readTG i) t) }

/-- UPDATE_TABLE on TB (41_gshare.md R135, 43_hybrid.md R161). -/
def State.trainTB (s : State) (i : Nat) (t : Bool) : State :=
  { s with tabTB := s.tabTB.write (fillT s.cfg) i (ctrUpdate s.cfg.cbT (s.readTB i) t) }

/-- C[i] <- v. -/
def State.writeC (s : State) (i v : Nat) : State :=
  { s with tabC := s.tabC.write (fillC s.cfg) i v }

/-- Emit one response word (30_encoding.md R95, 44_interface_ops.md R184). -/
def State.emit (s : State) (w : ResponseWord) : State := { s with responses := s.responses ++ [w] }

/-- respond(err, pred, data) of 00_scope.md R11. -/
def State.respond (s : State) (err pred : Bool) (data : BitVec 64) : State :=
  s.emit (responseWord err pred data)

/-- raise CmdError(code): the error response is the whole effect of a rejected command
(60_exceptions.md R202, R206). -/
def State.reject (s : State) (e : CmdError) : State := s.emit (errorWord e)

/-- A command has a step only on an instance that exists and has been reset (60_exceptions.md R203,
10_state.md R49). -/
def State.whenReady (s : State) (f : State → State) : Host.Outcome State Fault Refusal :=
  if s.cfg.legal = false then .refused .illegalConfiguration
  else if s.resetDone = false then .refused .beforeFirstReset
  else .next (f s)

/-- Perform a command: the legality check of 30_encoding.md R101 first, before any state is read or written,
and the effect only if it passes. -/
def State.perform (s : State) (i : Instr) (effect : State → State) : Host.Outcome State Fault Refusal :=
  s.whenReady fun s =>
    match check s.cfg i with
    | some e => s.reject e
    | none => effect s

/-- Reset (70_reset_and_hazards.md R230): every state element at once; the configuration, the requests still
presented and the responses already emitted are no state elements and stay (R232, log entry 7). -/
def State.applyReset (s : State) : Host.Outcome State Fault Refusal :=
  if s.cfg.legal = false then .refused .illegalConfiguration
  else .next { State.resetOf s.cfg with requests := s.requests, responses := s.responses }

/-- The oldest request, and the state with it taken from the channel (30_encoding.md R80). -/
def State.takeRequest (s : State) : Option (Request × State) :=
  match s.requests with
  | [] => none
  | q :: rest => some (q, { s with requests := rest })

end Sys2Proof.Machine
end

