-- ==== Sys2Proof/Machine/Gshare.lean ====
section
/-! DEFINITION. PU.GSHARE, which serves the kinds GSHARE and BIMODAL (41_gshare.md R130, R136). -/

namespace Sys2Proof.Machine

/-- The index of R132 on the state before the command. -/
def State.indexT (s : State) (a : Address) : Nat := gshareIndex a s.ghrG s.cfg.m s.cfg.n

/-- Predict on T[i], then history, then T[i], both with the true outcome; i is not computed again (R136,
92_eei_decisions.md D19). -/
def State.puGshare (s : State) (t : Bool) (a : Address) : State :=
  let i := s.indexT a
  let pred := ctrTaken s.cfg.cbT (s.readT i)
  let s := { s with ghrG := ghrUpdate s.ghrG s.cfg.n t }
  let s := s.trainT i t
  s.respond false pred 0

/-- PU.GSHARE. -/
def execPuGshare (sel : BitVec 3) (r t : Bool) (a : Address) (s : State) : Host.Outcome State Fault Refusal :=
  s.perform (.puGshare sel r t a) fun s => s.puGshare t a

end Sys2Proof.Machine
end

