-- ==== Sys2Proof/Machine/Hybrid.lean ====
section
/-! DEFINITION. PU.HYBRID (43_hybrid.md R160 to R166). -/

namespace Sys2Proof.Machine

/-- ci of R164 step 1. -/
def State.indexC (s : State) (a : Address) : Nat := chooserIndex a s.cfg.k

/-- ig of R164 step 2: the Gshare component's index, on GG before the command. -/
def State.indexTG (s : State) (a : Address) : Nat := gshareIndex a s.ghrGG s.cfg.m1 s.cfg.n

/-- ib of R164 step 2: the Bimodal component is the indexed table with history width 0 (R161). -/
def State.indexTB (s : State) (a : Address) : Nat := gshareIndex a s.ghrGB.toNat s.cfg.m2 0

/-- pg of R164 step 2. -/
def State.predG (s : State) (a : Address) : Bool := ctrTaken s.cfg.cbT (s.readTG (s.indexTG a))

/-- pb of R164 step 2. -/
def State.predB (s : State) (a : Address) : Bool := ctrTaken s.cfg.cbT (s.readTB (s.indexTB a))

/-- CHOOSER_SELECT (R163), use_g of R164 step 3. -/
def State.useG (s : State) (a : Address) : Bool := ctrTaken s.cfg.cbC (s.readC (s.indexC a))

/-- The chooser counter after a record (R164 step 6, R165): unchanged where the components agree. -/
def chooserUpdate (b c : Nat) (pg pb t : Bool) : Nat :=
  if pg = pb then c
  else if pg = t then ctrInc b c
  else ctrDec c

/-- The six steps of R164, every index and prediction taken from the state before the command. -/
def State.puHybrid (s : State) (t : Bool) (a : Address) : State :=
  let ci := s.indexC a
  let ig := s.indexTG a
  let ib := s.indexTB a
  let pg := s.predG a
  let pb := s.predB a
  let useG := s.useG a
  let pred := if useG then pg else pb
  let s := { s with ghrGG := ghrUpdate s.ghrGG s.cfg.n t }
  let s := if useG then s.trainTG ig t else s.trainTB ib t
  let s := s.writeC ci (chooserUpdate s.cfg.cbC (s.readC ci) pg pb t)
  s.respond false pred 0

/-- PU.HYBRID. -/
def execPuHybrid (sel : BitVec 3) (r t : Bool) (a : Address) (s : State) : Host.Outcome State Fault Refusal :=
  s.perform (.puHybrid sel r t a) fun s => s.puHybrid t a

end Sys2Proof.Machine
end

