-- ==== Sys2Proof/Machine/Interface.lean ====
section
/-! DEFINITION. NOP, RD and the reserved operations (44_interface_ops.md R180, R182; 30_encoding.md R91). -/

namespace Sys2Proof.Machine

/-- NOP (R180). -/
def execNop (sel : BitVec 3) (r t : Bool) (a : Address) (s : State) : Host.Outcome State Fault Refusal :=
  s.perform (.nop sel r t a) fun s => s.respond false false 0

/-- The state element a selector reads at index `i` (R182); none where the kind has no such element. -/
def State.readElement (s : State) (sel : Sel) (i : Nat) : Option Nat :=
  match sel, s.cfg.kind with
  | .smithCtr, .smith => some s.ctrS
  | .gshareTable, .gshare => some (s.readT i)
  | .gshareTable, .bimodal => some (s.readT i)
  | .chooser, .hybrid => some (s.readC i)
  | .hybGshareTable, .hybrid => some (s.readTG i)
  | .hybBimodalTable, .hybrid => some (s.readTB i)
  | .ghr, .gshare => some s.ghrG
  | .ghr, .bimodal => some s.ghrG
  | .ghr, .hybrid => some s.ghrGG
  | _, _ => none

/-- RD's answer (R182, R183). A selector without an element never comes here: R101 has rejected it. -/
def State.readOut (s : State) (sel : Sel) (a : Address) : State :=
  match s.readElement sel a.toNat with
  | some v => s.respond false false (zext64 v)
  | none => s.reject .selAbsent

/-- RD (R182). -/
def execRd (sel : Sel) (r t : Bool) (a : Address) (s : State) : Host.Outcome State Fault Refusal :=
  s.perform (.rd sel r t a) fun s => s.readOut sel a

/-- OP 101: E_RSVD_OP, whatever the other fields hold (R91, R101). -/
def execReservedOp101 (s : State) : Host.Outcome State Fault Refusal := s.whenReady fun s => s.reject .rsvdOp

/-- OP 110: E_RSVD_OP, whatever the other fields hold (R91, R101). -/
def execReservedOp110 (s : State) : Host.Outcome State Fault Refusal := s.whenReady fun s => s.reject .rsvdOp

/-- OP 111: E_RSVD_OP, whatever the other fields hold (R91, R101). -/
def execReservedOp111 (s : State) : Host.Outcome State Fault Refusal := s.whenReady fun s => s.reject .rsvdOp

end Sys2Proof.Machine
end

