-- ==== Sys2Proof/Machine/Smith.lean ====
section
/-! DEFINITION. PU.SMITH (42_smith.md R151). -/

namespace Sys2Proof.Machine

/-- Predict on S, train S with the true outcome. The address is not read (R152). -/
def State.puSmith (s : State) (t : Bool) : State :=
  let pred := ctrTaken s.cfg.cbS s.ctrS
  let s := { s with ctrS := ctrUpdate s.cfg.cbS s.ctrS t }
  s.respond false pred 0

/-- PU.SMITH. -/
def execPuSmith (sel : BitVec 3) (r t : Bool) (a : Address) (s : State) : Host.Outcome State Fault Refusal :=
  s.perform (.puSmith sel r t a) fun s => s.puSmith t

end Sys2Proof.Machine
end

