-- ==== Sys2Proof/Machine/Dispatch.lean ====
section
/-! DEFINITION. One arm per row of the opcode table (44_interface_ops.md R181). -/

namespace Sys2Proof.Machine

def exec (i : Instr) (s : State) : Host.Outcome State Fault Refusal :=
  match i with
  | .nop sel r t a => Sys2Proof.Machine.execNop sel r t a s
  | .puSmith sel r t a => Sys2Proof.Machine.execPuSmith sel r t a s
  | .puGshare sel r t a => Sys2Proof.Machine.execPuGshare sel r t a s
  | .puHybrid sel r t a => Sys2Proof.Machine.execPuHybrid sel r t a s
  | .rd sel r t a => Sys2Proof.Machine.execRd sel r t a s
  | .reservedOp101 _ _ _ _ => Sys2Proof.Machine.execReservedOp101 s
  | .reservedOp110 _ _ _ _ => Sys2Proof.Machine.execReservedOp110 s
  | .reservedOp111 _ _ _ _ => Sys2Proof.Machine.execReservedOp111 s

end Sys2Proof.Machine
end

