-- ==== Sys2Proof/Machine/Step.lean ====
section
/-! DEFINITION. One step: take the oldest request and perform it; with none presented the block idles and
nothing changes (30_encoding.md R80, 60_exceptions.md R214, 70_reset_and_hazards.md R232). -/

namespace Sys2Proof.Machine

def step (s : State) : Host.Outcome State Fault Refusal :=
  match s.takeRequest with
  | none => .next s
  | some (.reset, s) => s.applyReset
  | some (.command w, s) => exec (decode w) s

/-- The command whose bits are `w` presented so that the next step performs it. BPCORE fetches nothing
(10_state.md R40): its next command is the oldest one on the request channel. -/
def State.withFetchWord (s : State) (nbits w : Nat) : State :=
  { s with requests := .command (BitVec.ofNat 72 (w % 2 ^ nbits)) :: s.requests }

end Sys2Proof.Machine
end

