-- ==== Sys2Proof/Machine/Instance.lean ====
section
/-! DEFINITION. BPCORE as a machine that takes its configuration as an argument and holds none in its state
(00_scope.md R8). The one definition of a step is `step`; this file hands it the argument. -/

namespace Sys2Proof.Machine

/-- The state of an instance (10_state.md R32 to R35, R49): the fields of `State` but for the configuration, each
under its name there. -/
structure InstanceState where
  resetDone : Bool
  ctrS : Nat
  tabT : Table
  ghrG : Nat
  tabC : Table
  tabTG : Table
  ghrGG : Nat
  tabTB : Table
  ghrGB : BitVec 0
  requests : List Request
  responses : List ResponseWord
deriving DecidableEq, Repr

/-- The instance state `p` with the argument `c` beside it. -/
def InstanceState.under (p : InstanceState) (c : Config) : State where
  cfg := c
  resetDone := p.resetDone
  ctrS := p.ctrS
  tabT := p.tabT
  ghrG := p.ghrG
  tabC := p.tabC
  tabTG := p.tabTG
  ghrGG := p.ghrGG
  tabTB := p.tabTB
  ghrGB := p.ghrGB
  requests := p.requests
  responses := p.responses

/-- The instance's state, the configuration left out. -/
def State.instanceState (s : State) : InstanceState where
  resetDone := s.resetDone
  ctrS := s.ctrS
  tabT := s.tabT
  ghrG := s.ghrG
  tabC := s.tabC
  tabTG := s.tabTG
  ghrGG := s.ghrGG
  tabTB := s.tabTB
  ghrGB := s.ghrGB
  requests := s.requests
  responses := s.responses

/-- What an outcome says of the instance's state. -/
def instanceOutcome (o : Host.Outcome State Fault Refusal) : Host.Outcome InstanceState Fault Refusal :=
  match o with
  | .next s => .next s.instanceState
  | .fault f => .fault f
  | .refused q => .refused q

/-- The machine of configuration `c`. -/
def machineOf (c : Config) : Host.Core where
  State := InstanceState
  Fault := Fault
  Refusal := Refusal
  step := fun p => instanceOutcome (step (p.under c))
  reset := (State.resetOf c).instanceState

end Sys2Proof.Machine
end

