-- ==== Sys2Proof/Machine/Text.lean ====
section
/-! DEFINITION. The text forms of commands and responses (30_encoding.md R96, R97, R100) and the identity string
of a configuration (00_scope.md R3). A text is a list of characters. -/

namespace Sys2Proof.Machine

abbrev Text := List Char

/-- The upper-case hexadecimal digit of a value below 16 (log entry 13). -/
def hexChar (d : Nat) : Char := if d < 10 then Char.ofNat (48 + d) else Char.ofNat (55 + d)

/-- The value of a hexadecimal digit of either case (93_implementation_defined.md G3). -/
def hexValue (c : Char) : Option Nat :=
  if 48 ≤ c.toNat ∧ c.toNat ≤ 57 then some (c.toNat - 48)
  else if 65 ≤ c.toNat ∧ c.toNat ≤ 70 then some (c.toNat - 55)
  else if 97 ≤ c.toNat ∧ c.toNat ≤ 102 then some (c.toNat - 87)
  else none

/-- The value of a decimal digit. -/
def decValue (c : Char) : Option Nat :=
  if 48 ≤ c.toNat ∧ c.toNat ≤ 57 then some (c.toNat - 48) else none

/-- The `k` lowest hexadecimal digits of `v`, most significant first. -/
def hexDigits : Nat → Nat → Text
  | 0, _ => []
  | k + 1, v => hexDigits k (v / 16) ++ [hexChar (v % 16)]

/-- The value of a run of digits read on from `acc`; none where a character is no digit. -/
def readDigits (base : Nat) (digit : Char → Option Nat) (acc : Nat) : Text → Option Nat
  | [] => some acc
  | c :: rest =>
    match digit c with
    | none => none
    | some d => readDigits base digit (base * acc + d) rest

/-- The value of a hexadecimal token, which has at least one digit. -/
def readHex (cs : Text) : Option Nat := if cs = [] then none else readDigits 16 hexValue 0 cs

/-- The value of a decimal token, which has at least one digit. -/
def readDec (cs : Text) : Option Nat := if cs = [] then none else readDigits 10 decValue 0 cs

/-- A command word as 18 hexadecimal digits, most significant first (R100). -/
def commandText (w : CommandWord) : Text := hexDigits 18 w.toNat

/-- The command word that 18 hexadecimal digits stand for (R100). -/
def readCommandText (cs : Text) : Option CommandWord :=
  if cs.length = 18 then (readHex cs).map (BitVec.ofNat 72) else none

/-- A response word as 17 hexadecimal digits, the first being ERR<<1 | PRED (R100). -/
def responseText (w : ResponseWord) : Text := hexDigits 17 w.toNat

/-- The response word that 17 hexadecimal digits stand for; none where the first digit is above 3, which no
word has. -/
def readResponseText (cs : Text) : Option ResponseWord :=
  if cs.length = 17 then
    match readHex cs with
    | some v => if v < 2 ^ 66 then some (BitVec.ofNat 66 v) else none
    | none => none
  else none

/-- The text before and after the first `c`. -/
def splitAtChar (c : Char) : Text → Option (Text × Text)
  | [] => none
  | d :: rest =>
    if d = c then some ([], rest)
    else
      match splitAtChar c rest with
      | none => none
      | some (before, after) => some (d :: before, after)

/-- The value of a number, `0x` hexadecimal or decimal (R96). -/
def numberValue : Text → Option Nat
  | '0' :: 'x' :: digits => readHex digits
  | digits => readDec digits

/-- An unsigned number of an assembler line, which must be below 2^64 (R96). -/
def readNumber (cs : Text) : Option Address :=
  match numberValue cs with
  | some v => if v < 2 ^ 64 then some (BitVec.ofNat 64 v) else none
  | none => none

/-- `t` or `n` (R96, R98). -/
def readOutcome (cs : Text) : Option Bool :=
  match cs with
  | ['t'] => some true
  | ['n'] => some false
  | _ => none

/-- The name column of 30_encoding.md R89; a reserved code has no name. -/
def readSelName (cs : Text) : Option Sel :=
  if cs = "SMITH_CTR".toList then some .smithCtr
  else if cs = "GSHARE_TABLE".toList then some .gshareTable
  else if cs = "CHOOSER".toList then some .chooser
  else if cs = "HYB_GSHARE_TABLE".toList then some .hybGshareTable
  else if cs = "HYB_BIMODAL_TABLE".toList then some .hybBimodalTable
  else if cs = "GHR".toList then some .ghr
  else none

/-- The PU command a trace record becomes on an instance of configuration `c` (R97, BR). -/
def branchCommand (c : Config) (a : Address) (t : Bool) : Instr :=
  match c.kind with
  | .smith => .puSmith 0 false t a
  | .bimodal => .puGshare 0 false t a
  | .gshare => .puGshare 0 false t a
  | .hybrid => .puHybrid 0 false t a

/-- The RD commands that read the first `count` entries of a table, in index order. -/
def readAll (sel : Sel) (count : Nat) : List Instr :=
  (List.range count).map fun i => .rd sel false false (BitVec.ofNat 64 i)

/-- DUMP (R97, 44_interface_ops.md R185): the report's values in the report's order. -/
def dumpCommands (c : Config) : List Instr :=
  match c.kind with
  | .smith => readAll .smithCtr 1
  | .bimodal => readAll .gshareTable (pow2 c.m)
  | .gshare => readAll .gshareTable (pow2 c.m)
  | .hybrid =>
    readAll .chooser (pow2 c.k) ++ readAll .hybGshareTable (pow2 c.m1) ++ readAll .hybBimodalTable (pow2 c.m2)

/-- A PU or BR line's operands `<A>, <t|n>` (R96). -/
def readBranchOperands (ops : Text) : Option (Address × Bool) :=
  match splitAtChar ',' ops with
  | some (x, ' ' :: y) =>
    match readNumber x, readOutcome y with
    | some a, some t => some (a, t)
    | _, _ => none
  | _ => none

/-- An RD line's operands `<selname>, <index>` (R96). -/
def readRdOperands (ops : Text) : Option (Sel × Address) :=
  match splitAtChar ',' ops with
  | some (x, ' ' :: y) =>
    match readSelName x, readNumber y with
    | some sel, some a => some (sel, a)
    | _, _ => none
  | _ => none

/-- The commands of a line that has a mnemonic and operands (R96, R97). -/
def assembleOperands (c : Config) (mnemonic ops : Text) : Option (List Instr) :=
  if mnemonic = "PU.SMITH".toList then (readBranchOperands ops).map fun p => [.puSmith 0 false p.2 p.1]
  else if mnemonic = "PU.GSHARE".toList then (readBranchOperands ops).map fun p => [.puGshare 0 false p.2 p.1]
  else if mnemonic = "PU.HYBRID".toList then (readBranchOperands ops).map fun p => [.puHybrid 0 false p.2 p.1]
  else if mnemonic = "BR".toList then (readBranchOperands ops).map fun p => [branchCommand c p.1 p.2]
  else if mnemonic = "RD".toList then (readRdOperands ops).map fun p => [.rd p.1 false false p.2]
  else none

/-- The commands one assembler line stands for on an instance of configuration `c`; none where the line matches
no row of R96 or R97, which an assembler refuses. Exactly one space stands where the rows show one (log
entry 14). -/
def assembleLine (c : Config) (line : Text) : Option (List Instr) :=
  if line = "NOP".toList then some [.nop 0 false false 0]
  else if line = "DUMP".toList then some (dumpCommands c)
  else
    match splitAtChar ' ' line with
    | some (mnemonic, ops) => assembleOperands c mnemonic ops
    | none => none

/-- The words of one assembler line. -/
def assembleWords (c : Config) (line : Text) : Option (List CommandWord) := (assembleLine c line).map (·.map encode)

/-- A number in decimal digits (log entry 16). -/
def decText (v : Nat) : Text := Nat.toDigits 10 v

/-- The identity string of a configuration (00_scope.md R3). -/
def identityText (c : Config) : Text :=
  match c.params with
  | .smith cbS => "smith:".toList ++ decText cbS
  | .bimodal m cbT => "bimodal:".toList ++ decText m ++ ";cbt=".toList ++ decText cbT
  | .gshare m n cbT => "gshare:".toList ++ decText m ++ [','] ++ decText n ++ ";cbt=".toList ++ decText cbT
  | .hybrid k n m1 m2 cbT cbC ci =>
    "hybrid:".toList ++ decText k ++ [','] ++ decText n ++ [','] ++ decText m1 ++ [','] ++ decText m2 ++
      ";cbt=".toList ++ decText cbT ++ ";cbc=".toList ++ decText cbC ++ ";ci=".toList ++ decText ci

end Sys2Proof.Machine
end

