-- ==== Sys2Proof/Machine/Trace.lean ====
section
/-! DEFINITION. Trace records and their transcription into commands (30_encoding.md R98, R99; 60_exceptions.md
R204). A line is either one record or refused by its number; a refused line never reaches the block. -/

namespace Sys2Proof.Machine

/-- One trace record (00_scope.md glossary): an address and the true outcome. -/
structure Record where
  address : Address
  taken : Bool
deriving DecidableEq, Repr

/-- A line of the stream, and whether a `\n` ended it. -/
structure TraceLine where
  text : Text
  terminated : Bool
deriving DecidableEq, Repr

/-- The lines of a stream. `sofar` holds the characters of the line being read, newest first. The end of the
stream ends a line only if the line has a character (R98). -/
def traceLinesFrom : Text → Text → List TraceLine
  | sofar, [] => if sofar = [] then [] else [⟨sofar.reverse, false⟩]
  | sofar, c :: rest =>
    if c = '\n' then ⟨sofar.reverse, true⟩ :: traceLinesFrom [] rest
    else traceLinesFrom (c :: sofar) rest

/-- The lines of a stream (R98). -/
def traceLines (stream : Text) : List TraceLine := traceLinesFrom [] stream

/-- A line without the one `\r` that may stand before its `\n` (R98, R99). -/
def TraceLine.body (l : TraceLine) : Text :=
  if l.terminated = true ∧ l.text.getLast? = some '\r' then l.text.dropLast else l.text

/-- The record of a line's body: 1 to 16 hexadecimal digits, one space, `t` or `n`, nothing else (R99). A token
of 16 digits is its 64-bit pattern (92_eei_decisions.md D21). -/
def readRecord (body : Text) : Option Record :=
  match splitAtChar ' ' body with
  | some (token, flag) =>
    if token.length ≤ 16 then
      match readHex token, readOutcome flag with
      | some v, some t => some ⟨BitVec.ofNat 64 v, t⟩
      | _, _ => none
    else none
  | none => none

/-- Each line as its record, or refused by its number, the first line being number 1 (log entry 15). -/
def transcribeFrom : Nat → List TraceLine → List (Except Nat Record)
  | _, [] => []
  | n, l :: rest =>
    (match readRecord l.body with
      | some r => .ok r
      | none => .error n) :: transcribeFrom (n + 1) rest

/-- The transcription of a trace stream (R99). -/
def transcribe (stream : Text) : List (Except Nat Record) := transcribeFrom 1 (traceLines stream)

/-- The word of a record on an instance of configuration `c`: one PU command (R97, R99). -/
def Record.word (c : Config) (r : Record) : CommandWord := encode (branchCommand c r.address r.taken)

end Sys2Proof.Machine
end

