-- ==== Sys2Proof/Safety.lean ====
section
/-! DEFINITION. What a safe run is, in the terms the statements use: an instance that exists and has been reset,
whose state elements hold values of their widths, each kind with its own elements only (10_state.md R30, R33 to
R35, R39; 40_counter.md R117). -/

namespace Sys2Proof.Machine

/-- The instance exists and has been reset, so every command has a step (60_exceptions.md R203, 10_state.md
R49). -/
abbrev State.Ready (s : State) : Prop := s.cfg.legal = true ∧ s.resetDone = true

/-- The prediction table of GSHARE and BIMODAL is in canonical form: `pow2(M)` cells below `pow2(CB_T)`. -/
def State.wfT (s : State) : Bool := s.tabT.wf (fillT s.cfg) (pow2 s.cfg.m) (pow2 s.cfg.cbT)

/-- The same for TG, with `pow2(M1)` cells. -/
def State.wfTG (s : State) : Bool := s.tabTG.wf (fillT s.cfg) (pow2 s.cfg.m1) (pow2 s.cfg.cbT)

/-- The same for TB, with `pow2(M2)` cells. -/
def State.wfTB (s : State) : Bool := s.tabTB.wf (fillT s.cfg) (pow2 s.cfg.m2) (pow2 s.cfg.cbT)

/-- The same for the chooser: `pow2(K)` cells below `pow2(CB_C)`. -/
def State.wfC (s : State) : Bool := s.tabC.wf (fillC s.cfg) (pow2 s.cfg.k) (pow2 s.cfg.cbC)

/-- The elements of HYBRID are absent. -/
def State.noHybrid (s : State) : Bool := s.tabC == [] && s.tabTG == [] && s.ghrGG == 0 && s.tabTB == []

/-- The elements of GSHARE and BIMODAL are absent. -/
def State.noTable (s : State) : Bool := s.tabT == [] && s.ghrG == 0

/-- Every state element of the kind holds a value of its width, and the kind has no other element. -/
def State.elementsOk (s : State) : Bool :=
  match s.cfg.kind with
  | .smith => s.ctrS < pow2 s.cfg.cbS && s.noTable && s.noHybrid
  | .bimodal => s.wfT && s.ghrG < pow2 s.cfg.n && s.ctrS == 0 && s.noHybrid
  | .gshare => s.wfT && s.ghrG < pow2 s.cfg.n && s.ctrS == 0 && s.noHybrid
  | .hybrid => s.wfC && s.wfTG && s.wfTB && s.ghrGG < pow2 s.cfg.n && s.ctrS == 0 && s.noTable

/-- The invariant of a run: a legal configuration, reset done, and every element well formed. -/
abbrev State.Inv (s : State) : Prop := s.Ready ∧ s.elementsOk = true

/-- `ws` presented on the request channel, nothing else pending. -/
def State.present (s : State) (ws : List CommandWord) : State := { s with requests := ws.map .command }

/-- The trace `rs` presented: one PU command a record, in trace order (30_encoding.md R99, 20_memory.md R70). -/
def State.presentTrace (s : State) (rs : List Record) : State := s.present (rs.map (Record.word s.cfg))

end Sys2Proof.Machine
end

