-- ==== Sys2Proof/Certificates/Slice0/Obligations.lean ====
section
/-! DEFINITION. The statements for the provers. Where a rule of the spec gives a formula, the statement writes the
formula out in arithmetic of its own (`a / 4 % 2^m` for the index, response words as numbers) and does not call
the model's helper for it. No statement rests on the configuration of `State.reset` (log entry 2). -/

namespace Sys2Proof.Machine

/-! ### The spec's own texts, transcribed for the statements -/

/-- The "present in kind" column of 30_encoding.md R89 by SEL code, transcribed. -/
def specPresent (sel : Nat) (k : Kind) : Prop :=
  (sel = 0 ∧ k = .smith) ∨ (sel = 1 ∧ (k = .gshare ∨ k = .bimodal)) ∨ (sel = 2 ∧ k = .hybrid) ∨
    (sel = 3 ∧ k = .hybrid) ∨ (sel = 4 ∧ k = .hybrid) ∨ (sel = 5 ∧ k ≠ .smith)

/-- The "size" column of 30_encoding.md R89 by SEL code, transcribed. -/
def specSize (sel : Nat) (c : Config) : Nat :=
  if sel = 1 then 2 ^ c.m else if sel = 2 then 2 ^ c.k else if sel = 3 then 2 ^ c.m1
  else if sel = 4 then 2 ^ c.m2 else 1

/-- `w` has the fields op, sel, r, t, a of 30_encoding.md R81, as numbers. -/
def hasFields (w : CommandWord) (op sel r t a : Nat) : Prop :=
  sel < 8 ∧ r < 2 ∧ t < 2 ∧ a < 2 ^ 64 ∧
    w.toNat = op * 2 ^ 69 + sel * 2 ^ 66 + r * 2 ^ 65 + t * 2 ^ 64 + a

/-- `ch` is the digit `d` in base `base`, by the digits as they are written (93_implementation_defined.md G3). -/
def isDigit (base : Nat) (ch : Char) (d : Nat) : Prop :=
  d < base ∧ ("0123456789abcdef".toList[d]? = some ch ∨ "0123456789ABCDEF".toList[d]? = some ch)

/-- `cs` is a number of at least one digit in base `base`, most significant first, and `v` is its value. -/
def isNumber (base : Nat) (cs : Text) (v : Nat) : Prop :=
  cs ≠ [] ∧ ∃ ds : List Nat, List.Forall₂ (isDigit base) cs ds ∧ v = ds.foldl (fun acc d => base * acc + d) 0

/-- A line of a trace stream that 30_encoding.md R99 accepts, with its end: token, outcome, and whether a `\r`
stands before the `\n`. -/
def traceLineText (token : Text) (t cr : Bool) : Text :=
  token ++ [' ', if t then 't' else 'n'] ++ (if cr then ['\r', '\n'] else ['\n'])

/-- `s` and `s'` have the same value in every state element and the same configuration. -/
def sameElements (s s' : State) : Prop :=
  s'.cfg = s.cfg ∧ s'.resetDone = s.resetDone ∧ s'.ctrS = s.ctrS ∧ s'.tabT = s.tabT ∧ s'.ghrG = s.ghrG ∧
    s'.tabC = s.tabC ∧ s'.tabTG = s.tabTG ∧ s'.ghrGG = s.ghrGG ∧ s'.tabTB = s.tabTB ∧ s'.ghrGB = s.ghrGB

/-- The head of the request channel is a command whose OP is `op`. -/
def headOp (s : State) (op : BitVec 3) : Prop :=
  ∃ w rest, s.requests = .command w :: rest ∧ (decode w).op = op

end Sys2Proof.Machine

open Sys2Proof Sys2Proof.Machine

/-! ### Encoding (30_encoding.md) -/

/-- No bit of an encoding is dropped: every command, reserved rows and non-zero reserved fields included, is
read back from its own word (30_encoding.md sections 2 and 3). -/
def Obligations.DecodeOfEncode : Prop := ∀ i : Instr, decode (encode i) = i

/-- Every 72-bit word is the word of exactly the command it decodes to: no word is left without a meaning and no
two words share one (30_encoding.md section 3, "no encoding whose behaviour is left unspecified"). -/
def Obligations.EncodeOfDecode : Prop :=
  (∀ w : CommandWord, encode (decode w) = w) ∧ ∀ w w' : CommandWord, decode w = decode w' → w = w'

/-- The decoder reads each field at the place the field table gives it: OP selects the row, and SEL, R, T and A
are the numbers at bits [68:66], [65], [64] and [63:0] (30_encoding.md section 2). -/
def Obligations.DecoderReadsFieldTable : Prop :=
  ∀ (w : CommandWord) (op sel r t a : Nat), hasFields w op sel r t a →
    (op = 0 → decode w = .nop (BitVec.ofNat 3 sel) (r == 1) (t == 1) (BitVec.ofNat 64 a)) ∧
    (op = 1 → decode w = .puSmith (BitVec.ofNat 3 sel) (r == 1) (t == 1) (BitVec.ofNat 64 a)) ∧
    (op = 2 → decode w = .puGshare (BitVec.ofNat 3 sel) (r == 1) (t == 1) (BitVec.ofNat 64 a)) ∧
    (op = 3 → decode w = .puHybrid (BitVec.ofNat 3 sel) (r == 1) (t == 1) (BitVec.ofNat 64 a)) ∧
    (op = 4 → ∃ x : Sel, decode w = .rd x (r == 1) (t == 1) (BitVec.ofNat 64 a) ∧
      (sel = 0 → x = .smithCtr) ∧ (sel = 1 → x = .gshareTable) ∧ (sel = 2 → x = .chooser) ∧
      (sel = 3 → x = .hybGshareTable) ∧ (sel = 4 → x = .hybBimodalTable) ∧ (sel = 5 → x = .ghr) ∧
      (sel = 6 → x = .reserved110) ∧ (sel = 7 → x = .reserved111)) ∧
    (op = 5 → decode w = .reservedOp101 (BitVec.ofNat 3 sel) (r == 1) (t == 1) (BitVec.ofNat 64 a)) ∧
    (op = 6 → decode w = .reservedOp110 (BitVec.ofNat 3 sel) (r == 1) (t == 1) (BitVec.ofNat 64 a)) ∧
    (op = 7 → decode w = .reservedOp111 (BitVec.ofNat 3 sel) (r == 1) (t == 1) (BitVec.ofNat 64 a))

/-- A word of every row decodes to the command it stands for. The words are written out in 95_test_vectors.md, but
for the one of OP 110, which is that row's top byte 0xC0 in 30_encoding.md section 3 with every other field 0. -/
def Obligations.SpecWordsDecode : Prop :=
  decode 0x000000000000000000#72 = .nop 0 false false 0 ∧
  decode 0x210000000000000400#72 = .puSmith 0 false true 0x400#64 ∧
  decode 0x400000000000000004#72 = .puGshare 0 false false 0x4#64 ∧
  decode 0x420000000000000100#72 = .puGshare 0 true false 0x100#64 ∧
  decode 0x610000000000000008#72 = .puHybrid 0 false true 0x8#64 ∧
  decode 0x840000000000000003#72 = .rd .gshareTable false false 3#64 ∧
  decode 0x900000000000000002#72 = .rd .hybBimodalTable false false 2#64 ∧
  decode 0x980000000000000000#72 = .rd .reserved110 false false 0#64 ∧
  decode 0xA00000000000000000#72 = .reservedOp101 0 false false 0 ∧
  decode 0xC00000000000000000#72 = .reservedOp110 0 false false 0 ∧
  decode 0xE4FFFFFFFFFFFFFFFF#72 = .reservedOp111 1 false false 0xFFFFFFFFFFFFFFFF#64

/-- 30_encoding.md R101: the checks of the pseudocode, in its order, decide the error of every word, and a word
that passes them all is the command it was split into. -/
def Obligations.LegalityCheckOrder : Prop :=
  ∀ (c : Config) (w : CommandWord) (op sel r t a : Nat), hasFields w op sel r t a →
    ((op = 5 ∨ op = 6 ∨ op = 7) → decodeFor c w = .error .rsvdOp) ∧
    (op = 1 → c.kind ≠ .smith → decodeFor c w = .error .wrongKind) ∧
    (op = 2 → c.kind ≠ .gshare → c.kind ≠ .bimodal → decodeFor c w = .error .wrongKind) ∧
    (op = 3 → c.kind ≠ .hybrid → decodeFor c w = .error .wrongKind) ∧
    (op = 0 → (sel ≠ 0 ∨ r ≠ 0 ∨ t ≠ 0 ∨ a ≠ 0) → decodeFor c w = .error .rsvdField) ∧
    (op = 0 → sel = 0 → r = 0 → t = 0 → a = 0 → decodeFor c w = .ok (decode w)) ∧
    (((op = 1 ∧ c.kind = .smith) ∨ (op = 2 ∧ (c.kind = .gshare ∨ c.kind = .bimodal)) ∨
        (op = 3 ∧ c.kind = .hybrid)) →
      ((sel ≠ 0 ∨ r ≠ 0) → decodeFor c w = .error .rsvdField) ∧
      (sel = 0 → r = 0 → decodeFor c w = .ok (decode w))) ∧
    (op = 4 →
      ((r ≠ 0 ∨ t ≠ 0) → decodeFor c w = .error .rsvdField) ∧
      (r = 0 → t = 0 → (sel = 6 ∨ sel = 7) → decodeFor c w = .error .rsvdSel) ∧
      (r = 0 → t = 0 → sel ≠ 6 → sel ≠ 7 → ¬ specPresent sel c.kind → decodeFor c w = .error .selAbsent) ∧
      (r = 0 → t = 0 → specPresent sel c.kind → specSize sel c ≤ a → decodeFor c w = .error .indexRange) ∧
      (r = 0 → t = 0 → specPresent sel c.kind → a < specSize sel c → decodeFor c w = .ok (decode w)))

/-- Decoding depends on the kind and on the table sizes, and on nothing else (30_encoding.md section 3, the
paragraph "Decoding needs the configuration"). -/
def Obligations.LegalityNeedsKindAndSizesOnly : Prop :=
  ∀ (c c' : Config) (i : Instr), c.kind = c'.kind → (∀ sel : Sel, sel.size c = sel.size c') →
    check c i = check c' i

/-- The commands that some legal configuration accepts are the well-formed ones but for an RD of an index that no
legal configuration has: above 0 for SMITH_CTR and GHR, from 2^62 on for a table (30_encoding.md section 3;
00_scope.md section 3 for the index widths). An illegal configuration's check accepts no ill-formed command
either. -/
def Obligations.AcceptedBySomeConfiguration : Prop :=
  (∀ (c : Config) (i : Instr), check c i = none → i.wellFormed = true) ∧
  ∀ i : Instr, (∃ c : Config, c.legal = true ∧ check c i = none) ↔
    i.wellFormed = true ∧
      ∀ sel r t a, i = .rd sel r t a → a.toNat < (if sel = .smithCtr ∨ sel = .ghr then 1 else 2 ^ 62)

/-! ### Text forms (30_encoding.md section 5) -/

/-- 30_encoding.md R100: a command is 18 hexadecimal digits and a response 17, most significant first; the first
digit of a response is ERR<<1 | PRED and the other 16 are DATA. The letter case of a digit above 9 is the
model's choice (log entry 13): the statement names the digit's value. -/
def Obligations.WordsAsHexDigits : Prop :=
  (∀ w : CommandWord, (commandText w).length = 18 ∧
    ∀ k < 18, ∃ ch, (commandText w)[k]? = some ch ∧ hexValue ch = some (w.toNat / 16 ^ (17 - k) % 16)) ∧
  (∀ w : ResponseWord, (responseText w).length = 17 ∧
    (∃ ch, (responseText w)[0]? = some ch ∧
      hexValue ch = some (2 * (errBit w).toNat + (predBit w).toNat)) ∧
    ∀ k < 16, ∃ ch, (responseText w)[k + 1]? = some ch ∧
      hexValue ch = some ((dataField w).toNat / 16 ^ (15 - k) % 16)) ∧
  commandText (encode (.puSmith 0 false true 0x400#64)) = "210000000000000400".toList

/-- A word's text reads back as the word, and only texts of the right length are read (30_encoding.md
section 5). -/
def Obligations.HexTextReadsBack : Prop :=
  (∀ w : CommandWord, readCommandText (commandText w) = some w) ∧
  (∀ w : ResponseWord, readResponseText (responseText w) = some w) ∧
  (∀ (cs : Text) (w : CommandWord), readCommandText cs = some w → cs.length = 18) ∧
  (∀ (cs : Text) (w : ResponseWord), readResponseText cs = some w → cs.length = 17)

/-- Every line that matches a row of the assembler syntax or a pseudo-instruction, DUMP among them, assembles to
that row's commands (30_encoding.md section 5). The spacing of a line is the model's choice (log entry 14). -/
def Obligations.AssemblerAcceptsItsRows : Prop :=
  ∀ (c : Config) (x : Text) (a : Address) (t : Bool), readNumber x = some a →
    let line (m : String) : Text := m.toList ++ [' '] ++ x ++ [',', ' ', if t then 't' else 'n']
    let rdLine (m : String) : Text := "RD ".toList ++ m.toList ++ [',', ' '] ++ x
    assembleLine c "NOP".toList = some [.nop 0 false false 0] ∧
    assembleLine c (line "PU.SMITH") = some [.puSmith 0 false t a] ∧
    assembleLine c (line "PU.GSHARE") = some [.puGshare 0 false t a] ∧
    assembleLine c (line "PU.HYBRID") = some [.puHybrid 0 false t a] ∧
    (c.kind = .smith → assembleLine c (line "BR") = some [.puSmith 0 false t a]) ∧
    (c.kind = .gshare ∨ c.kind = .bimodal → assembleLine c (line "BR") = some [.puGshare 0 false t a]) ∧
    (c.kind = .hybrid → assembleLine c (line "BR") = some [.puHybrid 0 false t a]) ∧
    assembleLine c (rdLine "SMITH_CTR") = some [.rd .smithCtr false false a] ∧
    assembleLine c (rdLine "GSHARE_TABLE") = some [.rd .gshareTable false false a] ∧
    assembleLine c (rdLine "CHOOSER") = some [.rd .chooser false false a] ∧
    assembleLine c (rdLine "HYB_GSHARE_TABLE") = some [.rd .hybGshareTable false false a] ∧
    assembleLine c (rdLine "HYB_BIMODAL_TABLE") = some [.rd .hybBimodalTable false false a] ∧
    assembleLine c (rdLine "GHR") = some [.rd .ghr false false a] ∧
    let reads (sel : Sel) (size : Nat) : List Instr :=
      (List.range size).map fun i => .rd sel false false (BitVec.ofNat 64 i)
    (c.kind = .smith → assembleLine c "DUMP".toList = some [.rd .smithCtr false false 0]) ∧
    (c.kind = .gshare ∨ c.kind = .bimodal →
      assembleLine c "DUMP".toList = some (reads .gshareTable (2 ^ c.m))) ∧
    (c.kind = .hybrid → assembleLine c "DUMP".toList =
      some (reads .chooser (2 ^ c.k) ++ reads .hybGshareTable (2 ^ c.m1) ++ reads .hybBimodalTable (2 ^ c.m2)))

/-- Which texts are numbers, and of what value: an assembler number is `0x` and hexadecimal digits, or decimal
digits, of a value below 2^64, and a number of 2^64 or more is refused; a trace token's digits are hexadecimal
without a prefix (30_encoding.md section 5). That leading zeros are read, and `0X` is not, is the model's choice
(log entry 14). -/
def Obligations.NumbersReadByValue : Prop :=
  (∀ (cs : Text) (a : Address), readNumber cs = some a ↔
    ∃ v, v < 2 ^ 64 ∧ a = BitVec.ofNat 64 v ∧
      ((∃ digits, cs = '0' :: 'x' :: digits ∧ isNumber 16 digits v) ∨ isNumber 10 cs v)) ∧
  (∀ (digits : Text) (v : Nat), 2 ^ 64 ≤ v →
    (isNumber 16 digits v → readNumber ('0' :: 'x' :: digits) = none) ∧
    (isNumber 10 digits v → readNumber digits = none)) ∧
  ∀ (cs : Text) (v : Nat), readHex cs = some v ↔ isNumber 16 cs v

/-- A line the assembler accepts has one of the shapes of its rows, so every other line is refused, and what it
assembles to is well formed (30_encoding.md section 5, "an assembler refuses a line that does not match"). The
spacing of a line is the model's choice (log entry 14). -/
def Obligations.AssemblerRefusesOtherLines : Prop :=
  ∀ (c : Config) (cs : Text) (is : List Instr), assembleLine c cs = some is →
    (∀ i ∈ is, i.wellFormed = true) ∧
    (cs = "NOP".toList ∨ cs = "DUMP".toList ∨
      (∃ (m : String) (x : Text) (a : Address) (t : Bool),
        (m = "PU.SMITH" ∨ m = "PU.GSHARE" ∨ m = "PU.HYBRID" ∨ m = "BR") ∧ readNumber x = some a ∧
        cs = m.toList ++ [' '] ++ x ++ [',', ' ', if t then 't' else 'n']) ∨
      (∃ (m : String) (x : Text) (a : Address),
        (m = "SMITH_CTR" ∨ m = "GSHARE_TABLE" ∨ m = "CHOOSER" ∨ m = "HYB_GSHARE_TABLE" ∨
          m = "HYB_BIMODAL_TABLE" ∨ m = "GHR") ∧ readNumber x = some a ∧
        cs = "RD ".toList ++ m.toList ++ [',', ' '] ++ x))

/-- A stream of records of the accepted form, each line ended by `\n` or `\r\n`, transcribes to exactly its
records in order, and so does the same stream with one last record that the end of the stream ends; and a record's
word is the one PU word of the configured kind with the record's address in A and its outcome in T
(30_encoding.md section 5). -/
def Obligations.GoodTraceTranscribes : Prop :=
  (∀ (ls : List (Text × Nat × Bool × Bool)) (token : Text) (v : Nat) (t : Bool),
    (∀ l ∈ ls, readHex l.1 = some l.2.1 ∧ l.1.length ≤ 16) → readHex token = some v → token.length ≤ 16 →
    let stream := ls.flatMap fun l => traceLineText l.1 l.2.2.1 l.2.2.2
    let records := ls.map fun l => (Except.ok ⟨BitVec.ofNat 64 l.2.1, l.2.2.1⟩ : Except Nat Record)
    transcribe stream = records ∧
    transcribe (stream ++ (token ++ [' ', if t then 't' else 'n'])) =
      records ++ [.ok ⟨BitVec.ofNat 64 v, t⟩]) ∧
  ∀ (c : Config) (r : Record),
    (c.kind = .smith → hasFields (r.word c) 1 0 0 r.taken.toNat r.address.toNat) ∧
    (c.kind = .gshare ∨ c.kind = .bimodal → hasFields (r.word c) 2 0 0 r.taken.toNat r.address.toNat) ∧
    (c.kind = .hybrid → hasFields (r.word c) 3 0 0 r.taken.toNat r.address.toNat)

/-- Every line of a stream is either a record of the accepted form or refused by its own line number: 1 to 16
hexadecimal digits, one space, `t` or `n`, and nothing else (30_encoding.md section 5; the refusal is by line,
log entry 15). -/
def Obligations.BadTraceLinesRefused : Prop :=
  ∀ (stream : Text) (n : Nat) (l : TraceLine), (traceLines stream)[n]? = some l →
    (∀ (token : Text) (v : Nat) (t : Bool), readHex token = some v → token.length ≤ 16 →
      l.body = token ++ [' ', if t then 't' else 'n'] →
      (transcribe stream)[n]? = some (.ok ⟨BitVec.ofNat 64 v, t⟩)) ∧
    ((¬ ∃ (token : Text) (v : Nat) (t : Bool), readHex token = some v ∧ token.length ≤ 16 ∧
        l.body = token ++ [' ', if t then 't' else 'n']) →
      (transcribe stream)[n]? = some (.error (n + 1)))

/-! ### The counter (40_counter.md) -/

/-- 40_counter.md R113: the increment adds one below the ceiling and keeps the ceiling. -/
def Obligations.CounterIncrement : Prop :=
  ∀ b v : Nat, v ≤ 2 ^ b - 1 → ctrInc b v = min (v + 1) (2 ^ b - 1)

/-- 40_counter.md R114: the decrement takes one away above 0 and keeps 0; it never wraps. -/
def Obligations.CounterDecrement : Prop := ∀ v : Nat, (v = 0 → ctrDec v = 0) ∧ (0 < v → ctrDec v = v - 1)

/-- 40_counter.md R116: a taken outcome increments the counter and any other decrements it, and both clamp. -/
def Obligations.CounterUpdate : Prop :=
  ∀ b v : Nat, v ≤ 2 ^ b - 1 →
    ctrUpdate b v true = min (v + 1) (2 ^ b - 1) ∧ ctrUpdate b v false = v - 1

/-- 40_counter.md R115: the upper half of the range predicts taken, the threshold included; 0 never does and the
ceiling always does, at every width of at least 1. -/
def Obligations.CounterPredictsUpperHalf : Prop :=
  ∀ b v : Nat, 1 ≤ b → (ctrTaken b v = true ↔ 2 ^ (b - 1) ≤ v) ∧ ctrTaken b 0 = false ∧
    ctrTaken b (2 ^ b - 1) = true

/-- Saturation: no sequence of increments and decrements leaves the range (40_counter.md section 2, "under any
sequence of increments/decrements"). -/
def Obligations.CounterStaysInRange : Prop :=
  ∀ (b v : Nat) (ts : List Bool), v ≤ 2 ^ b - 1 → ts.foldl (ctrUpdate b) v ≤ 2 ^ b - 1

/-- The distances of 40_counter.md section 2: from the ceiling, k decrements leave the prediction taken exactly
while k < 2^(b-1); one decrement from the threshold, or one increment from just below it, turns it. -/
def Obligations.CounterDistances : Prop :=
  ∀ b : Nat, 1 ≤ b →
    (∀ k, ctrTaken b (ctrDec^[k] (2 ^ b - 1)) = true ↔ k < 2 ^ (b - 1)) ∧
    ctrTaken b (ctrDec (2 ^ (b - 1))) = false ∧
    ctrTaken b (ctrInc b (2 ^ (b - 1) - 1)) = true

/-! ### Indices and history (41_gshare.md, 43_hybrid.md, 20_memory.md) -/

/-- 41_gshare.md R131: PC_INDEX is the field A[w+1:2] as a number. -/
def Obligations.PcIndexIsAddressField : Prop :=
  ∀ (a : Address) (w : Nat), pcIndex a w = a.toNat / 4 % 2 ^ w

/-- The address's sign never matters: at every width up to 62 an arithmetic shift gives the same index
(20_memory.md section 2). -/
def Obligations.AddressSignNeverMatters : Prop :=
  ∀ (a : Address) (w : Nat), w ≤ 62 → pcIndex a w = (a.sshiftRight 2).toNat % 2 ^ w

/-- Every index a PU command computes is a valid index of its table (20_memory.md section 1; 41_gshare.md and
43_hybrid.md, the range statements), whatever the address. -/
def Obligations.IndicesStayInTheirTables : Prop :=
  ∀ (s : State) (a : Address), s.Inv →
    (s.cfg.kind = .gshare ∨ s.cfg.kind = .bimodal → s.indexT a < 2 ^ s.cfg.m) ∧
    (s.cfg.kind = .hybrid →
      s.indexC a < 2 ^ s.cfg.k ∧ s.indexTG a < 2 ^ s.cfg.m1 ∧ s.indexTB a < 2 ^ s.cfg.m2)

/-- Aliasing: two addresses with the same index bits have the same effect and the same response; bits [1:0] and
the bits above the index never matter (20_memory.md section 2). -/
def Obligations.AliasedAddressesActAlike : Prop :=
  ∀ (s : State) (t : Bool) (a a' : Address),
    (a.toNat / 4 % 2 ^ s.cfg.m = a'.toNat / 4 % 2 ^ s.cfg.m →
      exec (.puGshare 0 false t a) s = exec (.puGshare 0 false t a') s) ∧
    (a.toNat / 4 % 2 ^ s.cfg.k = a'.toNat / 4 % 2 ^ s.cfg.k →
      a.toNat / 4 % 2 ^ s.cfg.m1 = a'.toNat / 4 % 2 ^ s.cfg.m1 →
      a.toNat / 4 % 2 ^ s.cfg.m2 = a'.toNat / 4 % 2 ^ s.cfg.m2 →
      exec (.puHybrid 0 false t a) s = exec (.puHybrid 0 false t a') s)

/-- 41_gshare.md R134, bit by bit: the outcome enters at bit n-1, every other bit moves down by one, the oldest
falls out, and a register without bits stays 0. -/
def Obligations.HistoryShiftsOutcomeIn : Prop :=
  ∀ (g n : Nat) (t : Bool), g < 2 ^ n →
    (n = 0 → ghrUpdate g n t = 0) ∧
    (0 < n → (ghrUpdate g n t).testBit (n - 1) = t ∧
      ∀ j, j ≠ n - 1 → (ghrUpdate g n t).testBit j = g.testBit (j + 1)) ∧
    ghrUpdate g n t < 2 ^ n

/-! ### The commands -/

/-- 42_smith.md R151, whole: on a SMITH instance the prediction is S before the command against the threshold, S
moves by the true outcome, the address plays no part, and nothing else changes. -/
def Obligations.PuSmithResult : Prop :=
  ∀ (s : State) (t : Bool) (a : Address), s.Ready → s.cfg.kind = .smith →
    exec (.puSmith 0 false t a) s = .next { s with
      ctrS := ctrUpdate s.cfg.cbS s.ctrS t
      responses := s.responses ++
        [if 2 ^ (s.cfg.cbS - 1) ≤ s.ctrS then 0x10000000000000000#66 else 0#66] }

/-- With a 1-bit counter the Smith predictor holds the last outcome (42_smith.md, the corner case of the command
rule), and its next prediction is that outcome. -/
def Obligations.SmithOneBitHoldsLastOutcome : Prop :=
  ∀ (s : State) (t : Bool) (a : Address), s.Inv → s.cfg.params = .smith 1 →
    ∃ s', exec (.puSmith 0 false t a) s = .next s' ∧ s'.ctrS = t.toNat ∧
      ∀ (t' : Bool) (a' : Address), ∃ s'', exec (.puSmith 0 false t' a') s' = .next s'' ∧
        ∃ w, s''.responses = s'.responses ++ [w] ∧ predBit w = t

/-- 41_gshare.md R136 and R137, whole, on a GSHARE or BIMODAL instance: the index from the history before the
command, the prediction from T at that index before the command, the history shifted by the true outcome, that
one entry trained, and nothing else changed: every other entry of T reads as before. -/
def Obligations.PuGshareResult : Prop :=
  ∀ (s : State) (t : Bool) (a : Address), s.Ready → (s.cfg.kind = .gshare ∨ s.cfg.kind = .bimodal) →
    let p := a.toNat / 4 % 2 ^ s.cfg.m
    let i := if s.cfg.n = 0 then p else s.ghrG ^^^ p
    ∃ tab : Table,
      exec (.puGshare 0 false t a) s = .next { s with
        tabT := tab
        ghrG := if s.cfg.n = 0 then 0 else s.ghrG / 2 ||| (if t then 2 ^ (s.cfg.n - 1) else 0)
        responses := s.responses ++
          [if 2 ^ (s.cfg.cbT - 1) ≤ s.readT i then 0x10000000000000000#66 else 0#66] } ∧
      ∀ j, tab.read (2 ^ (s.cfg.cbT - 1)) j =
        if j = i then ctrUpdate s.cfg.cbT (s.readT i) t else s.readT j

/-- 43_hybrid.md R164, whole, on a HYBRID instance: both component predictions and the selection from the state
before the command, the history always, the selected component's entry alone, the chooser only on disagreement,
and nothing else changed. -/
def Obligations.PuHybridResult : Prop :=
  ∀ (s : State) (t : Bool) (a : Address), s.Ready → s.cfg.kind = .hybrid →
    let p := a.toNat / 4
    let ci := p % 2 ^ s.cfg.k
    let ig := if s.cfg.n = 0 then p % 2 ^ s.cfg.m1 else s.ghrGG ^^^ (p % 2 ^ s.cfg.m1)
    let ib := p % 2 ^ s.cfg.m2
    let pg : Bool := 2 ^ (s.cfg.cbT - 1) ≤ s.readTG ig
    let pb : Bool := 2 ^ (s.cfg.cbT - 1) ≤ s.readTB ib
    let useG : Bool := 2 ^ (s.cfg.cbC - 1) ≤ s.readC ci
    ∃ tg tb c : Table,
      exec (.puHybrid 0 false t a) s = .next { s with
        tabTG := tg
        tabTB := tb
        tabC := c
        ghrGG := if s.cfg.n = 0 then 0 else s.ghrGG / 2 ||| (if t then 2 ^ (s.cfg.n - 1) else 0)
        responses := s.responses ++
          [if (if useG then pg else pb) then 0x10000000000000000#66 else 0#66] } ∧
      (∀ j, tg.read (2 ^ (s.cfg.cbT - 1)) j =
        if useG ∧ j = ig then ctrUpdate s.cfg.cbT (s.readTG ig) t else s.readTG j) ∧
      (∀ j, tb.read (2 ^ (s.cfg.cbT - 1)) j =
        if useG = false ∧ j = ib then ctrUpdate s.cfg.cbT (s.readTB ib) t else s.readTB j) ∧
      (∀ j, c.read s.cfg.ci j =
        if j = ci ∧ pg ≠ pb then
          (if pg = t then ctrInc s.cfg.cbC (s.readC ci) else ctrDec (s.readC ci))
        else s.readC j)

/-- 43_hybrid.md R166: a PU.HYBRID always writes GG; it trains exactly one table entry, TG[ig] when Gshare is
selected and TB[ib] otherwise, and leaves the other component's table as it is; it writes C[ci] only when the
components disagree; every other entry, and every element of another kind, keeps its value. -/
def Obligations.PuHybridFrame : Prop :=
  ∀ (s s' : State) (t : Bool) (a : Address), s.Ready → s.cfg.kind = .hybrid →
    exec (.puHybrid 0 false t a) s = .next s' →
    s'.ghrGG = ghrUpdate s.ghrGG s.cfg.n t ∧
    (s.useG a = true → s'.tabTB = s.tabTB ∧
      s'.readTG (s.indexTG a) = ctrUpdate s.cfg.cbT (s.readTG (s.indexTG a)) t ∧
      ∀ j, j ≠ s.indexTG a → s'.readTG j = s.readTG j) ∧
    (s.useG a = false → s'.tabTG = s.tabTG ∧
      s'.readTB (s.indexTB a) = ctrUpdate s.cfg.cbT (s.readTB (s.indexTB a)) t ∧
      ∀ j, j ≠ s.indexTB a → s'.readTB j = s.readTB j) ∧
    (s.predG a = s.predB a → ∀ j, s'.readC j = s.readC j) ∧
    (∀ j, j ≠ s.indexC a → s'.readC j = s.readC j) ∧
    s'.ctrS = s.ctrS ∧ s'.tabT = s.tabT ∧ s'.ghrG = s.ghrG ∧ s'.ghrGB = s.ghrGB ∧
    s'.cfg = s.cfg ∧ s'.resetDone = s.resetDone ∧ s'.requests = s.requests

/-- The chooser table of 43_hybrid.md section 3, all eight rows of (pg, pb, t), whichever component was
selected. -/
def Obligations.ChooserUpdateTable : Prop :=
  ∀ (s s' : State) (t : Bool) (a : Address), s.Inv → s.cfg.kind = .hybrid →
    exec (.puHybrid 0 false t a) s = .next s' →
    let ci := s.indexC a
    let c := s.readC ci
    (s.predG a = s.predB a → s'.readC ci = c) ∧
    (s.predG a = true → s.predB a = false → t = true → s'.readC ci = min (c + 1) (2 ^ s.cfg.cbC - 1)) ∧
    (s.predG a = false → s.predB a = true → t = false → s'.readC ci = min (c + 1) (2 ^ s.cfg.cbC - 1)) ∧
    (s.predG a = true → s.predB a = false → t = false → s'.readC ci = c - 1) ∧
    (s.predG a = false → s.predB a = true → t = true → s'.readC ci = c - 1)

/-- The chooser bias of 43_hybrid.md section 4, on a run of PU.HYBRID records of any outcomes, records at other
chooser indices among them: if Gshare is right and Bimodal wrong on each record at the index `i`, in the state in
which that record is performed, then the number of them is what C[i] rises by, up to its ceiling, and from below
the threshold exactly 2^(CB_C-1) - C[i] of them turn the selection at `i` to Gshare. -/
def Obligations.ChooserBias : Prop :=
  ∀ (s : State) (rs : List Record) (i : Nat), s.Inv → s.cfg.kind = .hybrid →
    let at_i (r : Record) : Bool := r.address.toNat / 4 % 2 ^ s.cfg.k == i
    (∀ (k : Nat) (t : State) (r : Record), Host.Core.run Sys2Proof.core k (s.presentTrace rs) = .next t →
      rs[k]? = some r → at_i r = true → t.predG r.address = r.taken ∧ t.predB r.address = !r.taken) →
    let count := (rs.filter at_i).length
    ∃ s', Host.Core.run Sys2Proof.core rs.length (s.presentTrace rs) = .next s' ∧
      s'.readC i = min (s.readC i + count) (2 ^ s.cfg.cbC - 1) ∧
      (s.readC i < 2 ^ (s.cfg.cbC - 1) → ∀ a : Address, a.toNat / 4 % 2 ^ s.cfg.k = i →
        (s'.useG a = true ↔ 2 ^ (s.cfg.cbC - 1) - s.readC i ≤ count))

/-- 44_interface_ops.md R180: the one legal NOP answers 0 and changes nothing, on every kind; any non-zero field
gives E_RSVD_FIELD. -/
def Obligations.NopResult : Prop :=
  ∀ s : State, s.Ready →
    exec (.nop 0 false false 0) s = .next { s with responses := s.responses ++ [0#66] } ∧
    ∀ (sel : BitVec 3) (r t : Bool) (a : Address), (sel ≠ 0 ∨ r = true ∨ t = true ∨ a ≠ 0) →
      exec (.nop sel r t a) s = .next { s with responses := s.responses ++ [0x20000000000000003#66] }

/-- 44_interface_ops.md R182: each selector reads its element at every legal index, and the read changes
nothing; an RD with a reserved field, a reserved selector, a selector the kind does not have or an index past the
element's size is answered with its error code, in that order, and changes nothing either. -/
def Obligations.RdResult : Prop :=
  ∀ (s : State) (a : Address), s.Ready →
    let answers (sel : Sel) (v : Nat) : Prop :=
      exec (.rd sel false false a) s = .next { s with responses := s.responses ++ [0#2 ++ BitVec.ofNat 64 v] }
    let rejects (sel : Sel) (r t : Bool) (code : Nat) : Prop :=
      exec (.rd sel r t a) s = .next { s with responses := s.responses ++ [0b10#2 ++ BitVec.ofNat 64 code] }
    (s.cfg.kind = .smith → a = 0 → answers .smithCtr s.ctrS) ∧
    (s.cfg.kind = .gshare ∨ s.cfg.kind = .bimodal → a.toNat < 2 ^ s.cfg.m →
      answers .gshareTable (s.readT a.toNat)) ∧
    (s.cfg.kind = .hybrid → a.toNat < 2 ^ s.cfg.k → answers .chooser (s.readC a.toNat)) ∧
    (s.cfg.kind = .hybrid → a.toNat < 2 ^ s.cfg.m1 → answers .hybGshareTable (s.readTG a.toNat)) ∧
    (s.cfg.kind = .hybrid → a.toNat < 2 ^ s.cfg.m2 → answers .hybBimodalTable (s.readTB a.toNat)) ∧
    (s.cfg.kind = .gshare ∨ s.cfg.kind = .bimodal → a = 0 → answers .ghr s.ghrG) ∧
    (s.cfg.kind = .hybrid → a = 0 → answers .ghr s.ghrGG) ∧
    (∀ sel r t, r = true ∨ t = true → rejects sel r t 3) ∧
    rejects .reserved110 false false 4 ∧ rejects .reserved111 false false 4 ∧
    (s.cfg.kind ≠ .smith → rejects .smithCtr false false 5) ∧
    (s.cfg.kind ≠ .gshare → s.cfg.kind ≠ .bimodal → rejects .gshareTable false false 5) ∧
    (s.cfg.kind ≠ .hybrid → rejects .chooser false false 5 ∧ rejects .hybGshareTable false false 5 ∧
      rejects .hybBimodalTable false false 5) ∧
    (s.cfg.kind = .smith → rejects .ghr false false 5) ∧
    (s.cfg.kind = .smith → a ≠ 0 → rejects .smithCtr false false 6) ∧
    (s.cfg.kind ≠ .smith → a ≠ 0 → rejects .ghr false false 6) ∧
    (s.cfg.kind = .gshare ∨ s.cfg.kind = .bimodal → 2 ^ s.cfg.m ≤ a.toNat →
      rejects .gshareTable false false 6) ∧
    (s.cfg.kind = .hybrid →
      (2 ^ s.cfg.k ≤ a.toNat → rejects .chooser false false 6) ∧
      (2 ^ s.cfg.m1 ≤ a.toNat → rejects .hybGshareTable false false 6) ∧
      (2 ^ s.cfg.m2 ≤ a.toNat → rejects .hybBimodalTable false false 6))

/-- What an accepted RD returns is the element's value, not a truncation of it: below 2^CB_T, 2^CB_C or 2^N, so
zero-extension to 64 bits loses nothing (44_interface_ops.md, the paragraph on the values RD returns). -/
def Obligations.RdReturnsWholeValue : Prop :=
  ∀ (s : State) (sel : Sel) (a : Address), s.Inv → check s.cfg (.rd sel false false a) = none →
    ∃ (v : Nat) (s' : State) (w : ResponseWord), s.readElement sel a.toNat = some v ∧
      exec (.rd sel false false a) s = .next s' ∧ s'.responses = s.responses ++ [w] ∧
      (dataField w).toNat = v ∧ errBit w = false ∧ predBit w = false

/-- Only a PU command and reset change the predictor: RD and NOP, in every form, leave every element as it was
(20_memory.md section 3). -/
def Obligations.RdAndNopChangeNoState : Prop :=
  ∀ (s s' : State) (i : Instr), (i.op = 0b000#3 ∨ i.op = 0b100#3) → exec i s = .next s' →
    sameElements s s' ∧ s'.requests = s.requests

/-- The reserved operations, whatever their other fields hold: the answer is E_RSVD_OP and nothing changes
(30_encoding.md section 3; 60_exceptions.md section 2). -/
def Obligations.ReservedOperationsAnswerError : Prop :=
  ∀ (s : State) (sel : BitVec 3) (r t : Bool) (a : Address), s.Ready →
    let rejected : Host.Outcome State Fault Refusal :=
      .next { s with responses := s.responses ++ [0x20000000000000001#66] }
    exec (.reservedOp101 sel r t a) s = rejected ∧
    exec (.reservedOp110 sel r t a) s = rejected ∧
    exec (.reservedOp111 sel r t a) s = rejected

/-- The illegal encodings of a PU command (30_encoding.md section 3): on an instance of another kind, whatever
the other fields hold, the answer is E_WRONG_KIND; on its own kind a non-zero SEL or R gives E_RSVD_FIELD; nothing
changes. -/
def Obligations.IllegalPuAnswersItsCode : Prop :=
  ∀ (s : State) (sel : BitVec 3) (r t : Bool) (a : Address), s.Ready →
    let rejected (code : Nat) : Host.Outcome State Fault Refusal :=
      .next { s with responses := s.responses ++ [0b10#2 ++ BitVec.ofNat 64 code] }
    (s.cfg.kind ≠ .smith → exec (.puSmith sel r t a) s = rejected 2) ∧
    (s.cfg.kind ≠ .gshare → s.cfg.kind ≠ .bimodal → exec (.puGshare sel r t a) s = rejected 2) ∧
    (s.cfg.kind ≠ .hybrid → exec (.puHybrid sel r t a) s = rejected 2) ∧
    ((sel ≠ 0 ∨ r = true) →
      (s.cfg.kind = .smith → exec (.puSmith sel r t a) s = rejected 3) ∧
      (s.cfg.kind = .gshare ∨ s.cfg.kind = .bimodal → exec (.puGshare sel r t a) s = rejected 3) ∧
      (s.cfg.kind = .hybrid → exec (.puHybrid sel r t a) s = rejected 3))

/-- 60_exceptions.md R202: a rejected command changes no state, answers ERR = 1, PRED = 0 and its code in DATA,
and leaves the block ready for the next command. -/
def Obligations.RejectionChangesNothing : Prop :=
  ∀ (s : State) (i : Instr) (e : CmdError), s.Ready → check s.cfg i = some e →
    ∃ w : ResponseWord, exec i s = .next { s with responses := s.responses ++ [w] } ∧
      errBit w = true ∧ predBit w = false ∧ (dataField w).toNat = errorCode e ∧
      1 ≤ errorCode e ∧ errorCode e ≤ 6

/-- The fields of a response (30_encoding.md section 4): ERR tells a rejected command from an accepted one, PRED
is 0 unless the command is an accepted PU, DATA is 0 unless the command is an accepted RD or a rejected one. -/
def Obligations.ResponseFields : Prop :=
  ∀ (s : State) (i : Instr), s.Ready →
    ∃ (s' : State) (w : ResponseWord), exec i s = .next s' ∧ s'.responses = s.responses ++ [w] ∧
      (errBit w = true ↔ check s.cfg i ≠ none) ∧
      (predBit w = true → check s.cfg i = none ∧ (i.op = 0b001#3 ∨ i.op = 0b010#3 ∨ i.op = 0b011#3)) ∧
      (dataField w ≠ 0 → check s.cfg i ≠ none ∨ i.op = 0b100#3)

/-! ### The machine -/

/-- A step with a command presented is exec of the decoded command on the state with that command taken from the
channel; a step with reset presented is the reset (30_encoding.md section 1). -/
def Obligations.StepRunsDecodedCommand : Prop :=
  ∀ (s : State) (rest : List Request),
    (∀ w, s.requests = .command w :: rest → step s = exec (decode w) { s with requests := rest }) ∧
    (∀ i, s.requests = .command (encode i) :: rest → step s = exec i { s with requests := rest }) ∧
    (s.requests = .reset :: rest → step s = State.applyReset { s with requests := rest })

/-- With nothing presented the block idles and nothing changes (60_exceptions.md section 5). That the model has a
step for this at all is its own choice (log entry 3). -/
def Obligations.IdleChangesNothing : Prop := ∀ s : State, s.requests = [] → step s = .next s

/-- The configuration is an argument of the machine, fixed for the life of the instance: no step changes it,
reset included, and the interface's steps and runs are those of `machineOf c`, the machine that takes the
configuration as an argument and holds none in its state (00_scope.md section 3, 10_state.md section 3; that the
interface's State carries the argument beside the state is the model's choice, log entry 1). -/
def Obligations.ConfigurationNeverChanges : Prop :=
  (∀ s s' : State, step s = .next s' → s'.cfg = s.cfg) ∧
  ∀ (c : Config) (k : Nat) (p : InstanceState),
    (∀ p' : InstanceState, Host.Core.run (machineOf c) k p = .next p' ↔
      Host.Core.run Sys2Proof.core k (p.under c) = .next (p'.under c)) ∧
    (∀ q : Refusal, Host.Core.run (machineOf c) k p = .refused q ↔
      Host.Core.run Sys2Proof.core k (p.under c) = .refused q)

/-- Who writes what (10_state.md section 2): an element that a step changes was changed by its own kind's PU
command, or by reset. -/
def Obligations.OnlyItsOwnCommandWritesAnElement : Prop :=
  ∀ s s' : State, step s = .next s' → (∀ rest, s.requests ≠ .reset :: rest) →
    (s'.ctrS ≠ s.ctrS → s.cfg.kind = .smith ∧ headOp s 0b001#3) ∧
    (s'.tabT ≠ s.tabT ∨ s'.ghrG ≠ s.ghrG →
      (s.cfg.kind = .gshare ∨ s.cfg.kind = .bimodal) ∧ headOp s 0b010#3) ∧
    (s'.tabC ≠ s.tabC ∨ s'.tabTG ≠ s.tabTG ∨ s'.ghrGG ≠ s.ghrGG ∨ s'.tabTB ≠ s.tabTB →
      s.cfg.kind = .hybrid ∧ headOp s 0b011#3) ∧
    s'.ghrGB = s.ghrGB ∧ s'.resetDone = s.resetDone

/-- 10_state.md R49: before the first reset a command has no step: it is refused, by name, whatever it is. -/
def Obligations.CommandsBeforeResetRefused : Prop :=
  ∀ (s : State) (i : Instr), s.cfg.legal = true → s.resetDone = false → exec i s = .refused .beforeFirstReset

/-- 60_exceptions.md R203: the legality check is the spec's, and an illegal configuration gives no instance: no
command has a step and reset produces no state. -/
def Obligations.IllegalConfigurationRefused : Prop :=
  (∀ c : Config, c.legal = true ↔
    (1 ≤ c.maxCounterBits ∧ c.maxCounterBits ≤ 64 ∧ c.maxIndexBits ≤ 62) ∧
    (∀ cbS, c.params = .smith cbS → 1 ≤ cbS ∧ cbS ≤ c.maxCounterBits) ∧
    (∀ m cbT, c.params = .bimodal m cbT → m ≤ c.maxIndexBits ∧ 1 ≤ cbT ∧ cbT ≤ c.maxCounterBits) ∧
    (∀ m n cbT, c.params = .gshare m n cbT →
      m ≤ c.maxIndexBits ∧ n ≤ m ∧ 1 ≤ cbT ∧ cbT ≤ c.maxCounterBits) ∧
    (∀ k n m1 m2 cbT cbC ci, c.params = .hybrid k n m1 m2 cbT cbC ci →
      k ≤ c.maxIndexBits ∧ m1 ≤ c.maxIndexBits ∧ m2 ≤ c.maxIndexBits ∧ n ≤ m1 ∧
      1 ≤ cbT ∧ cbT ≤ c.maxCounterBits ∧ 1 ≤ cbC ∧ cbC ≤ c.maxCounterBits ∧ ci ≤ 2 ^ cbC - 1)) ∧
  (∀ s : State, s.cfg.legal = false →
    (∀ i : Instr, exec i s = .refused .illegalConfiguration) ∧
    ∀ rest, s.requests = .reset :: rest → step s = .refused .illegalConfiguration)

/-- 70_reset_and_hazards.md R230: reset of a legal configuration, from whatever state, sets every element of the
kind to its reset value at once, and produces no response. -/
def Obligations.ResetSetsEveryElement : Prop :=
  ∀ (s : State) (rest : List Request), s.cfg.legal = true → s.requests = .reset :: rest →
    ∃ s' : State, step s = .next s' ∧ s'.cfg = s.cfg ∧ s'.resetDone = true ∧
      s'.responses = s.responses ∧
      (s.cfg.kind = .smith → s'.ctrS = 2 ^ (s.cfg.cbS - 1)) ∧
      (s.cfg.kind = .gshare ∨ s.cfg.kind = .bimodal →
        (∀ i, s'.readT i = 2 ^ (s.cfg.cbT - 1)) ∧ s'.ghrG = 0) ∧
      (s.cfg.kind = .hybrid →
        (∀ i, s'.readC i = s.cfg.ci) ∧ (∀ i, s'.readTG i = 2 ^ (s.cfg.cbT - 1)) ∧
        (∀ i, s'.readTB i = 2 ^ (s.cfg.cbT - 1)) ∧ s'.ghrGG = 0)

/-- Reset discards all training: two states of one configuration, whatever they hold and whether or not they
were reset before, are the same state after a reset but for the channels, namely the machine right after reset
(70_reset_and_hazards.md section 1). That the requests still pending stay is the model's choice (log entry 7). -/
def Obligations.ResetDiscardsTraining : Prop :=
  ∀ (s : State) (rest : List Request), s.cfg.legal = true → s.requests = .reset :: rest →
    step s = .next { State.resetOf s.cfg with requests := rest, responses := s.responses }

/-- The machine right after reset meets the invariant, for every legal configuration and for `State.reset`. -/
def Obligations.ResetMeetsInvariant : Prop :=
  (∀ c : Config, c.legal = true → (State.resetOf c).Inv) ∧ State.reset.Inv

/-- Every step keeps the invariant: the configuration stays legal, the instance stays ready, every counter stays
within its width, every table keeps its canonical form and its size, every history register stays within its
width, and the kind's elements stay the only ones (10_state.md sections 1 and 2; 40_counter.md section 2). -/
def Obligations.StepKeepsInvariant : Prop := ∀ s s' : State, s.Inv → step s = .next s' → s'.Inv

/-- A ready machine never stops: every step, on whatever is presented, answers a next state, and the machine is
ready in it (44_interface_ops.md, "it never halts itself and never refuses a further command"). -/
def Obligations.ReadyMachineNeverStops : Prop := ∀ s : State, s.Ready → ∃ s', step s = .next s' ∧ s'.Ready

/-- 44_interface_ops.md R184: every command, successful or not, produces exactly one response, in command
order; a run of any command words from a ready state ends with one response a word and nothing left to do, each
response is the one its own step gives on the state after the earlier commands, and a rejected command gives its
error response and changes nothing. -/
def Obligations.OneResponsePerCommand : Prop :=
  ∀ (ws : List CommandWord) (s : State), s.Ready → s.requests = ws.map .command →
    ∃ (s' : State) (rs : List ResponseWord), Host.Core.run Sys2Proof.core ws.length s = .next s' ∧
      rs.length = ws.length ∧ s'.responses = s.responses ++ rs ∧ s'.requests = [] ∧
      ∀ k < ws.length, ∃ t t' : State, ∃ w r, Host.Core.run Sys2Proof.core k s = .next t ∧
        ws[k]? = some w ∧ rs[k]? = some r ∧ step t = .next t' ∧
        t.requests = (ws.drop k).map .command ∧ t'.responses = t.responses ++ [r] ∧
        ∀ e, decodeFor t.cfg w = .error e →
          r = 0b10#2 ++ BitVec.ofNat 64 (errorCode e) ∧ sameElements t t'

/-- Nothing inside the block reads a response: a step does the same whatever the response channel holds
(10_state.md section 3; 41_gshare.md, the determinism paragraph). -/
def Obligations.ResponsesAreNeverRead : Prop :=
  ∀ (s : State) (rs : List ResponseWord),
    (∀ s', step s = .next s' → ∃ new, s'.responses = s.responses ++ new ∧
      step { s with responses := rs } = .next { s' with responses := rs ++ new }) ∧
    (∀ q, step s = .refused q → step { s with responses := rs } = .refused q)

/-! ### Runs of a trace (41_gshare.md section 4, 42_smith.md, 43_hybrid.md section 4, 44_interface_ops.md) -/

/-- What G holds: after any trace from reset, bit N-1-j is the outcome j records back, and 0 where the trace is
shorter (41_gshare.md section 4, the paragraph on GHR contents). -/
def Obligations.HistoryHoldsLastOutcomes : Prop :=
  ∀ (c : Config) (rs : List Record), c.legal = true → c.kind = .gshare →
    ∃ s', Host.Core.run Sys2Proof.core rs.length ((State.resetOf c).presentTrace rs) = .next s' ∧
      ∀ j < c.n, s'.ghrG.testBit (c.n - 1 - j) = ((rs.reverse[j]?).map Record.taken).getD false

/-- History shift: N taken outcomes from a zero history of width N set every bit, and N not-taken outcomes clear
it from any value (41_gshare.md section 4). -/
def Obligations.HistoryFillsAndClears : Prop :=
  ∀ (s : State) (rs : List Record), s.Inv → s.cfg.kind = .gshare → rs.length = s.cfg.n →
    ∃ s', Host.Core.run Sys2Proof.core rs.length (s.presentTrace rs) = .next s' ∧
      ((∀ r ∈ rs, r.taken = true) → s.ghrG = 0 → s'.ghrG = 2 ^ s.cfg.n - 1) ∧
      ((∀ r ∈ rs, r.taken = false) → s'.ghrG = 0)

/-- Bimodal is Gshare with no history: on every sequence of command words, legal or not, the BIMODAL instance M
and the GSHARE instance (M, 0) of the same counter width give the same responses and the same table evolution
(41_gshare.md sections 1 and 4). -/
def Obligations.BimodalIsGshareWithoutHistory : Prop :=
  ∀ (m cbT maxC maxI : Nat) (ws : List CommandWord) (k : Nat),
    let b : Config := ⟨.bimodal m cbT, maxC, maxI⟩
    let g : Config := ⟨.gshare m 0 cbT, maxC, maxI⟩
    b.legal = true →
    ∃ sb sg, Host.Core.run Sys2Proof.core k ((State.resetOf b).present ws) = .next sb ∧
      Host.Core.run Sys2Proof.core k ((State.resetOf g).present ws) = .next sg ∧
      sb.responses = sg.responses ∧ sb.tabT = sg.tabT ∧ sb.ghrG = sg.ghrG ∧ sb.requests = sg.requests

/-- The Smith predictor is a one-entry table: on every trace the SMITH instance of width b and the GSHARE
instance (M = 0, N = 0, CB_T = b) give the same responses, and T[0] is S (42_smith.md, the paragraph
"Equivalence with a one-entry table"). -/
def Obligations.SmithIsOneEntryTable : Prop :=
  ∀ (b maxC maxI : Nat) (rs : List Record) (k : Nat),
    let smith : Config := ⟨.smith b, maxC, maxI⟩
    let gshare : Config := ⟨.gshare 0 0 b, maxC, maxI⟩
    smith.legal = true →
    ∃ ss sg, Host.Core.run Sys2Proof.core k ((State.resetOf smith).presentTrace rs) = .next ss ∧
      Host.Core.run Sys2Proof.core k ((State.resetOf gshare).presentTrace rs) = .next sg ∧
      ss.responses = sg.responses ∧ ss.ctrS = sg.readT 0

/-- History independence: on every trace, GG of a HYBRID instance equals the G of the stand-alone GSHARE instance
(M1, N, CB_T), whichever components were selected (43_hybrid.md section 4). -/
def Obligations.HybridHistoryIsGshareHistory : Prop :=
  ∀ (k n m1 m2 cbT cbC ci maxC maxI : Nat) (rs : List Record) (j : Nat),
    let hybrid : Config := ⟨.hybrid k n m1 m2 cbT cbC ci, maxC, maxI⟩
    let gshare : Config := ⟨.gshare m1 n cbT, maxC, maxI⟩
    hybrid.legal = true →
    ∃ sh sg, Host.Core.run Sys2Proof.core j ((State.resetOf hybrid).presentTrace rs) = .next sh ∧
      Host.Core.run Sys2Proof.core j ((State.resetOf gshare).presentTrace rs) = .next sg ∧
      sh.ghrGG = sg.ghrG

/-- The report's dump: the DUMP sequence reads every value of the configured kind in the report's order, and the
state is the same after it (44_interface_ops.md, the paragraph "Final report dump as commands"). -/
def Obligations.DumpReadsEveryValueInOrder : Prop :=
  ∀ s : State, s.Ready →
    let count := (dumpCommands s.cfg).length
    let start := s.present ((dumpCommands s.cfg).map encode)
    let answers (f : Nat → Nat) (size : Nat) : List ResponseWord :=
      (List.range size).map fun i => 0#2 ++ BitVec.ofNat 64 (f i)
    let after (rs : List ResponseWord) : Host.Outcome State Fault Refusal :=
      .next { s with requests := [], responses := s.responses ++ rs }
    (s.cfg.kind = .smith → Host.Core.run Sys2Proof.core count start = after (answers (fun _ => s.ctrS) 1)) ∧
    (s.cfg.kind = .gshare ∨ s.cfg.kind = .bimodal →
      Host.Core.run Sys2Proof.core count start = after (answers s.readT (2 ^ s.cfg.m))) ∧
    (s.cfg.kind = .hybrid →
      Host.Core.run Sys2Proof.core count start =
        after (answers s.readC (2 ^ s.cfg.k) ++ answers s.readTG (2 ^ s.cfg.m1) ++
          answers s.readTB (2 ^ s.cfg.m2)))
end

