-- ==== Sys2Proof/Laws/Counter.lean ====
section
/-! SUPPORT. What the counter, index and history operations can do, said once each (40_counter.md,
41_gshare.md section 2). -/

namespace Sys2Proof.Machine

theorem pow2_eq (x : Nat) : pow2 x = 2 ^ x := rfl

theorem pow2_pos (x : Nat) : 0 < pow2 x := Nat.two_pow_pos x

theorem lowmask_eq (w : Nat) : lowmask w = 2 ^ w - 1 := rfl

theorem threshold_eq (b : Nat) : threshold b = 2 ^ (b - 1) := rfl

theorem ceiling_eq (b : Nat) : ceiling b = 2 ^ b - 1 := rfl

/-- The threshold of a counter of width at least 1 is a value of the counter (10_state.md R31). -/
theorem threshold_lt_pow2 (b : Nat) (hb : 1 ≤ b) : threshold b < pow2 b := by
  simp only [threshold, pow2]
  exact Nat.pow_lt_pow_right (by omega) (by omega)

/-- An increment stays within the width (40_counter.md R117). -/
theorem ctrInc_lt_pow2 (b v : Nat) (hv : v < pow2 b) : ctrInc b v < pow2 b := by
  unfold ctrInc ceiling
  split <;> omega

/-- A decrement stays within the width (40_counter.md R117). -/
theorem ctrDec_lt_pow2 (b v : Nat) (hv : v < pow2 b) : ctrDec v < pow2 b := by
  unfold ctrDec
  split <;> omega

theorem ctrUpdate_lt_pow2 (b v : Nat) (t : Bool) (hv : v < pow2 b) : ctrUpdate b v t < pow2 b := by
  cases t
  · exact ctrDec_lt_pow2 b v hv
  · exact ctrInc_lt_pow2 b v hv

@[simp] theorem ctrUpdate_true (b v : Nat) : ctrUpdate b v true = ctrInc b v := rfl

@[simp] theorem ctrUpdate_false (b v : Nat) : ctrUpdate b v false = ctrDec v := rfl

theorem ctrTaken_iff (b v : Nat) : ctrTaken b v = true ↔ threshold b ≤ v := by
  simp [ctrTaken]

/-- A masked value is below its width's bound (41_gshare.md R132, 43_hybrid.md R162). -/
theorem and_lowmask_lt (x w : Nat) : x &&& lowmask w < pow2 w := by
  rw [lowmask_eq, pow2_eq, Nat.and_two_pow_sub_one_eq_mod]
  exact Nat.mod_lt _ (Nat.two_pow_pos w)

theorem pcIndex_lt (a : Address) (w : Nat) : pcIndex a w < pow2 w := and_lowmask_lt _ w

theorem chooserIndex_lt (a : Address) (k : Nat) : chooserIndex a k < pow2 k := and_lowmask_lt _ k

/-- The range statement of 41_gshare.md R132. -/
theorem gshareIndex_lt (a : Address) (g m n : Nat) (hg : g < pow2 n) (hn : n ≤ m) :
    gshareIndex a g m n < pow2 m := by
  unfold gshareIndex
  split
  · have hgm : g < pow2 m := Nat.lt_of_lt_of_le hg (Nat.pow_le_pow_right (by omega) hn)
    exact Nat.xor_lt_two_pow hgm (pcIndex_lt a m)
  · exact pcIndex_lt a m

/-- The history stays within its width (41_gshare.md R134). -/
theorem ghrUpdate_lt (g n : Nat) (t : Bool) (hg : g < pow2 n) : ghrUpdate g n t < pow2 n := by
  have half : g >>> 1 < pow2 n := by
    rw [Nat.shiftRight_eq_div_pow]
    omega
  unfold ghrUpdate
  split
  · exact pow2_pos n
  · split
    · refine Nat.or_lt_two_pow half ?_
      exact Nat.pow_lt_pow_right (by omega) (by omega)
    · exact half

end Sys2Proof.Machine
end

