-- ==== Sys2Proof/Laws/Decode.lean ====
section
/-! SUPPORT. A command word and its fields as numbers (30_encoding.md R81), and what the legality check can
answer (R101). -/

namespace Sys2Proof

theorem toNat_append_eq {m n : Nat} (x : BitVec m) (y : BitVec n) :
    (x ++ y).toNat = x.toNat * 2 ^ n + y.toNat := by
  rw [BitVec.toNat_append, ← Nat.shiftLeft_add_eq_or_of_lt y.isLt, Nat.shiftLeft_eq]

/-- The number a word of five fields is (R81). -/
theorem packWord_toNat (op sel : BitVec 3) (r t : Bool) (a : Address) :
    (packWord op sel r t a).toNat =
      op.toNat * 2 ^ 69 + sel.toNat * 2 ^ 66 + r.toNat * 2 ^ 65 + t.toNat * 2 ^ 64 + a.toNat := by
  unfold packWord
  simp only [toNat_append_eq, BitVec.toNat_ofBool]
  omega

theorem CommandWord.op_toNat (w : CommandWord) : w.op.toNat = w.toNat / 2 ^ 69 := by
  have := w.isLt
  simp only [CommandWord.op, BitVec.extractLsb'_toNat, Nat.shiftRight_eq_div_pow]
  omega

theorem CommandWord.sel_toNat (w : CommandWord) : w.sel.toNat = w.toNat / 2 ^ 66 % 8 := by
  simp only [CommandWord.sel, BitVec.extractLsb'_toNat, Nat.shiftRight_eq_div_pow]

theorem CommandWord.a_toNat (w : CommandWord) : w.a.toNat = w.toNat % 2 ^ 64 := by
  simp [CommandWord.a, BitVec.extractLsb'_toNat]

theorem CommandWord.r_toNat (w : CommandWord) : w.r.toNat = w.toNat / 2 ^ 65 % 2 := by
  simp only [CommandWord.r, BitVec.getLsbD, Nat.testBit_eq_decide_div_mod_eq]
  rcases Nat.mod_two_eq_zero_or_one (w.toNat / 2 ^ 65) with h | h <;> rw [h] <;> rfl

theorem CommandWord.t_toNat (w : CommandWord) : w.t.toNat = w.toNat / 2 ^ 64 % 2 := by
  simp only [CommandWord.t, BitVec.getLsbD, Nat.testBit_eq_decide_div_mod_eq]
  rcases Nat.mod_two_eq_zero_or_one (w.toNat / 2 ^ 64) with h | h <;> rw [h] <;> rfl

theorem bool_eq_of_toNat {x y : Bool} (h : x.toNat = y.toNat) : x = y := by
  cases x <;> cases y <;> simp_all

section Fields

variable (op sel : BitVec 3) (r t : Bool) (a : Address)

theorem packWord_op : (packWord op sel r t a).op = op := by
  apply BitVec.eq_of_toNat_eq
  have := op.isLt; have := sel.isLt; have := r.toNat_lt; have := t.toNat_lt; have := a.isLt
  rw [CommandWord.op_toNat, packWord_toNat]
  omega

theorem packWord_sel : (packWord op sel r t a).sel = sel := by
  apply BitVec.eq_of_toNat_eq
  have := op.isLt; have := sel.isLt; have := r.toNat_lt; have := t.toNat_lt; have := a.isLt
  rw [CommandWord.sel_toNat, packWord_toNat]
  omega

theorem packWord_r : (packWord op sel r t a).r = r := by
  apply bool_eq_of_toNat
  have := op.isLt; have := sel.isLt; have := r.toNat_lt; have := t.toNat_lt; have := a.isLt
  rw [CommandWord.r_toNat, packWord_toNat]
  omega

theorem packWord_t : (packWord op sel r t a).t = t := by
  apply bool_eq_of_toNat
  have := op.isLt; have := sel.isLt; have := r.toNat_lt; have := t.toNat_lt; have := a.isLt
  rw [CommandWord.t_toNat, packWord_toNat]
  omega

theorem packWord_a : (packWord op sel r t a).a = a := by
  apply BitVec.eq_of_toNat_eq
  have := op.isLt; have := sel.isLt; have := r.toNat_lt; have := t.toNat_lt; have := a.isLt
  rw [CommandWord.a_toNat, packWord_toNat]
  omega

end Fields

/-- A word is its five fields. -/
theorem packWord_fields (w : CommandWord) : packWord w.op w.sel w.r w.t w.a = w := by
  apply BitVec.eq_of_toNat_eq
  have := w.isLt
  rw [packWord_toNat, CommandWord.op_toNat, CommandWord.sel_toNat, CommandWord.r_toNat, CommandWord.t_toNat,
    CommandWord.a_toNat]
  omega

theorem Sel.ofBits_toBits (sel : Sel) : Sel.ofBits sel.toBits = sel := by
  cases sel <;> rfl

theorem Sel.toBits_ofBits (b : BitVec 3) : (Sel.ofBits b).toBits = b := by
  revert b
  decide

theorem puFieldCheck_eq_none (sel : BitVec 3) (r : Bool) : puFieldCheck sel r = none ↔ sel = 0 ∧ r = false := by
  unfold puFieldCheck
  by_cases h : sel = 0 <;> cases r <;> simp [h]

/-- A PU.SMITH passes the check exactly on its own kind with its reserved fields 0 (R101). -/
theorem check_puSmith_eq_none (c : Config) (sel : BitVec 3) (r t : Bool) (a : Address) :
    check c (.puSmith sel r t a) = none ↔ c.kind = .smith ∧ sel = 0 ∧ r = false := by
  simp only [check]
  by_cases h : c.kind = .smith <;> simp [h, puFieldCheck_eq_none]

theorem check_puGshare_eq_none (c : Config) (sel : BitVec 3) (r t : Bool) (a : Address) :
    check c (.puGshare sel r t a) = none ↔ (c.kind = .gshare ∨ c.kind = .bimodal) ∧ sel = 0 ∧ r = false := by
  simp only [check]
  by_cases h : c.kind = .gshare <;> by_cases h' : c.kind = .bimodal <;> simp_all [puFieldCheck_eq_none]

theorem check_puHybrid_eq_none (c : Config) (sel : BitVec 3) (r t : Bool) (a : Address) :
    check c (.puHybrid sel r t a) = none ↔ c.kind = .hybrid ∧ sel = 0 ∧ r = false := by
  simp only [check]
  by_cases h : c.kind = .hybrid <;> simp [h, puFieldCheck_eq_none]

theorem check_nop_eq_none (c : Config) (sel : BitVec 3) (r t : Bool) (a : Address) :
    check c (.nop sel r t a) = none ↔ sel = 0 ∧ r = false ∧ t = false ∧ a = 0 := by
  simp only [check]
  by_cases hs : sel = 0 <;> by_cases ha : a = 0 <;> cases r <;> cases t <;> simp [hs, ha]

theorem check_rd_eq_none (c : Config) (sel : Sel) (r t : Bool) (a : Address) :
    check c (.rd sel r t a) = none ↔ r = false ∧ t = false ∧ sel.isReserved = false ∧
      sel.present c.kind = true ∧ a.toNat < sel.size c := by
  simp only [check]
  cases r <;> cases t <;> simp
  cases hres : sel.isReserved <;> simp
  cases hpre : sel.present c.kind <;> simp

end Sys2Proof
end

