-- ==== Sys2Proof/Laws/State.lean ====
section
/-! SUPPORT. What each update of State leaves and changes: one lemma a field and update, true by definition, so
that no later proof unfolds a record update. -/

namespace Sys2Proof.Machine

/-! ### emit -/

@[simp] theorem State.emit_cfg (s : State) (w : ResponseWord) :
    (s.emit w).cfg = s.cfg := rfl

@[simp] theorem State.emit_resetDone (s : State) (w : ResponseWord) :
    (s.emit w).resetDone = s.resetDone := rfl

@[simp] theorem State.emit_ctrS (s : State) (w : ResponseWord) :
    (s.emit w).ctrS = s.ctrS := rfl

@[simp] theorem State.emit_tabT (s : State) (w : ResponseWord) :
    (s.emit w).tabT = s.tabT := rfl

@[simp] theorem State.emit_ghrG (s : State) (w : ResponseWord) :
    (s.emit w).ghrG = s.ghrG := rfl

@[simp] theorem State.emit_tabC (s : State) (w : ResponseWord) :
    (s.emit w).tabC = s.tabC := rfl

@[simp] theorem State.emit_tabTG (s : State) (w : ResponseWord) :
    (s.emit w).tabTG = s.tabTG := rfl

@[simp] theorem State.emit_ghrGG (s : State) (w : ResponseWord) :
    (s.emit w).ghrGG = s.ghrGG := rfl

@[simp] theorem State.emit_tabTB (s : State) (w : ResponseWord) :
    (s.emit w).tabTB = s.tabTB := rfl

@[simp] theorem State.emit_ghrGB (s : State) (w : ResponseWord) :
    (s.emit w).ghrGB = s.ghrGB := rfl

@[simp] theorem State.emit_requests (s : State) (w : ResponseWord) :
    (s.emit w).requests = s.requests := rfl

@[simp] theorem State.emit_responses (s : State) (w : ResponseWord) :
    (s.emit w).responses = s.responses ++ [w] := rfl

/-! ### trainT -/

@[simp] theorem State.trainT_cfg (s : State) (i : Nat) (t : Bool) :
    (s.trainT i t).cfg = s.cfg := rfl

@[simp] theorem State.trainT_resetDone (s : State) (i : Nat) (t : Bool) :
    (s.trainT i t).resetDone = s.resetDone := rfl

@[simp] theorem State.trainT_ctrS (s : State) (i : Nat) (t : Bool) :
    (s.trainT i t).ctrS = s.ctrS := rfl

@[simp] theorem State.trainT_tabT (s : State) (i : Nat) (t : Bool) :
    (s.trainT i t).tabT = s.tabT.write (fillT s.cfg) i (ctrUpdate s.cfg.cbT (s.readT i) t) := rfl

@[simp] theorem State.trainT_ghrG (s : State) (i : Nat) (t : Bool) :
    (s.trainT i t).ghrG = s.ghrG := rfl

@[simp] theorem State.trainT_tabC (s : State) (i : Nat) (t : Bool) :
    (s.trainT i t).tabC = s.tabC := rfl

@[simp] theorem State.trainT_tabTG (s : State) (i : Nat) (t : Bool) :
    (s.trainT i t).tabTG = s.tabTG := rfl

@[simp] theorem State.trainT_ghrGG (s : State) (i : Nat) (t : Bool) :
    (s.trainT i t).ghrGG = s.ghrGG := rfl

@[simp] theorem State.trainT_tabTB (s : State) (i : Nat) (t : Bool) :
    (s.trainT i t).tabTB = s.tabTB := rfl

@[simp] theorem State.trainT_ghrGB (s : State) (i : Nat) (t : Bool) :
    (s.trainT i t).ghrGB = s.ghrGB := rfl

@[simp] theorem State.trainT_requests (s : State) (i : Nat) (t : Bool) :
    (s.trainT i t).requests = s.requests := rfl

@[simp] theorem State.trainT_responses (s : State) (i : Nat) (t : Bool) :
    (s.trainT i t).responses = s.responses := rfl

/-! ### trainTG -/

@[simp] theorem State.trainTG_cfg (s : State) (i : Nat) (t : Bool) :
    (s.trainTG i t).cfg = s.cfg := rfl

@[simp] theorem State.trainTG_resetDone (s : State) (i : Nat) (t : Bool) :
    (s.trainTG i t).resetDone = s.resetDone := rfl

@[simp] theorem State.trainTG_ctrS (s : State) (i : Nat) (t : Bool) :
    (s.trainTG i t).ctrS = s.ctrS := rfl

@[simp] theorem State.trainTG_tabT (s : State) (i : Nat) (t : Bool) :
    (s.trainTG i t).tabT = s.tabT := rfl

@[simp] theorem State.trainTG_ghrG (s : State) (i : Nat) (t : Bool) :
    (s.trainTG i t).ghrG = s.ghrG := rfl

@[simp] theorem State.trainTG_tabC (s : State) (i : Nat) (t : Bool) :
    (s.trainTG i t).tabC = s.tabC := rfl

@[simp] theorem State.trainTG_tabTG (s : State) (i : Nat) (t : Bool) :
    (s.trainTG i t).tabTG = s.tabTG.write (fillT s.cfg) i (ctrUpdate s.cfg.cbT (s.readTG i) t) := rfl

@[simp] theorem State.trainTG_ghrGG (s : State) (i : Nat) (t : Bool) :
    (s.trainTG i t).ghrGG = s.ghrGG := rfl

@[simp] theorem State.trainTG_tabTB (s : State) (i : Nat) (t : Bool) :
    (s.trainTG i t).tabTB = s.tabTB := rfl

@[simp] theorem State.trainTG_ghrGB (s : State) (i : Nat) (t : Bool) :
    (s.trainTG i t).ghrGB = s.ghrGB := rfl

@[simp] theorem State.trainTG_requests (s : State) (i : Nat) (t : Bool) :
    (s.trainTG i t).requests = s.requests := rfl

@[simp] theorem State.trainTG_responses (s : State) (i : Nat) (t : Bool) :
    (s.trainTG i t).responses = s.responses := rfl

/-! ### trainTB -/

@[simp] theorem State.trainTB_cfg (s : State) (i : Nat) (t : Bool) :
    (s.trainTB i t).cfg = s.cfg := rfl

@[simp] theorem State.trainTB_resetDone (s : State) (i : Nat) (t : Bool) :
    (s.trainTB i t).resetDone = s.resetDone := rfl

@[simp] theorem State.trainTB_ctrS (s : State) (i : Nat) (t : Bool) :
    (s.trainTB i t).ctrS = s.ctrS := rfl

@[simp] theorem State.trainTB_tabT (s : State) (i : Nat) (t : Bool) :
    (s.trainTB i t).tabT = s.tabT := rfl

@[simp] theorem State.trainTB_ghrG (s : State) (i : Nat) (t : Bool) :
    (s.trainTB i t).ghrG = s.ghrG := rfl

@[simp] theorem State.trainTB_tabC (s : State) (i : Nat) (t : Bool) :
    (s.trainTB i t).tabC = s.tabC := rfl

@[simp] theorem State.trainTB_tabTG (s : State) (i : Nat) (t : Bool) :
    (s.trainTB i t).tabTG = s.tabTG := rfl

@[simp] theorem State.trainTB_ghrGG (s : State) (i : Nat) (t : Bool) :
    (s.trainTB i t).ghrGG = s.ghrGG := rfl

@[simp] theorem State.trainTB_tabTB (s : State) (i : Nat) (t : Bool) :
    (s.trainTB i t).tabTB = s.tabTB.write (fillT s.cfg) i (ctrUpdate s.cfg.cbT (s.readTB i) t) := rfl

@[simp] theorem State.trainTB_ghrGB (s : State) (i : Nat) (t : Bool) :
    (s.trainTB i t).ghrGB = s.ghrGB := rfl

@[simp] theorem State.trainTB_requests (s : State) (i : Nat) (t : Bool) :
    (s.trainTB i t).requests = s.requests := rfl

@[simp] theorem State.trainTB_responses (s : State) (i : Nat) (t : Bool) :
    (s.trainTB i t).responses = s.responses := rfl

/-! ### writeC -/

@[simp] theorem State.writeC_cfg (s : State) (i v : Nat) :
    (s.writeC i v).cfg = s.cfg := rfl

@[simp] theorem State.writeC_resetDone (s : State) (i v : Nat) :
    (s.writeC i v).resetDone = s.resetDone := rfl

@[simp] theorem State.writeC_ctrS (s : State) (i v : Nat) :
    (s.writeC i v).ctrS = s.ctrS := rfl

@[simp] theorem State.writeC_tabT (s : State) (i v : Nat) :
    (s.writeC i v).tabT = s.tabT := rfl

@[simp] theorem State.writeC_ghrG (s : State) (i v : Nat) :
    (s.writeC i v).ghrG = s.ghrG := rfl

@[simp] theorem State.writeC_tabC (s : State) (i v : Nat) :
    (s.writeC i v).tabC = s.tabC.write (fillC s.cfg) i v := rfl

@[simp] theorem State.writeC_tabTG (s : State) (i v : Nat) :
    (s.writeC i v).tabTG = s.tabTG := rfl

@[simp] theorem State.writeC_ghrGG (s : State) (i v : Nat) :
    (s.writeC i v).ghrGG = s.ghrGG := rfl

@[simp] theorem State.writeC_tabTB (s : State) (i v : Nat) :
    (s.writeC i v).tabTB = s.tabTB := rfl

@[simp] theorem State.writeC_ghrGB (s : State) (i v : Nat) :
    (s.writeC i v).ghrGB = s.ghrGB := rfl

@[simp] theorem State.writeC_requests (s : State) (i v : Nat) :
    (s.writeC i v).requests = s.requests := rfl

@[simp] theorem State.writeC_responses (s : State) (i v : Nat) :
    (s.writeC i v).responses = s.responses := rfl

/-! ### respond and reject are emissions -/

@[simp] theorem State.respond_eq (s : State) (err pred : Bool) (data : BitVec 64) :
    s.respond err pred data = s.emit (responseWord err pred data) := rfl

@[simp] theorem State.reject_eq (s : State) (e : CmdError) : s.reject e = s.emit (errorWord e) := rfl

/-! ### the reset state -/

@[simp] theorem State.resetOf_cfg (c : Config) : (State.resetOf c).cfg = c := rfl

@[simp] theorem State.resetOf_resetDone (c : Config) : (State.resetOf c).resetDone = true := rfl

@[simp] theorem State.resetOf_ctrS (c : Config) : (State.resetOf c).ctrS = resetCtrS c := rfl

@[simp] theorem State.resetOf_tabT (c : Config) : (State.resetOf c).tabT = [] := rfl

@[simp] theorem State.resetOf_ghrG (c : Config) : (State.resetOf c).ghrG = 0 := rfl

@[simp] theorem State.resetOf_tabC (c : Config) : (State.resetOf c).tabC = [] := rfl

@[simp] theorem State.resetOf_tabTG (c : Config) : (State.resetOf c).tabTG = [] := rfl

@[simp] theorem State.resetOf_ghrGG (c : Config) : (State.resetOf c).ghrGG = 0 := rfl

@[simp] theorem State.resetOf_tabTB (c : Config) : (State.resetOf c).tabTB = [] := rfl

@[simp] theorem State.resetOf_ghrGB (c : Config) : (State.resetOf c).ghrGB = 0#0 := rfl

@[simp] theorem State.resetOf_requests (c : Config) : (State.resetOf c).requests = [] := rfl

@[simp] theorem State.resetOf_responses (c : Config) : (State.resetOf c).responses = [] := rfl

/-! ### table reads look at one table and the configuration -/

theorem State.readT_congr (s s' : State) (ht : s'.tabT = s.tabT) (hc : s'.cfg = s.cfg) (i : Nat) :
    s'.readT i = s.readT i := by simp [State.readT, ht, hc]

theorem State.readTG_congr (s s' : State) (ht : s'.tabTG = s.tabTG) (hc : s'.cfg = s.cfg) (i : Nat) :
    s'.readTG i = s.readTG i := by simp [State.readTG, ht, hc]

theorem State.readTB_congr (s s' : State) (ht : s'.tabTB = s.tabTB) (hc : s'.cfg = s.cfg) (i : Nat) :
    s'.readTB i = s.readTB i := by simp [State.readTB, ht, hc]

theorem State.readC_congr (s s' : State) (ht : s'.tabC = s.tabC) (hc : s'.cfg = s.cfg) (i : Nat) :
    s'.readC i = s.readC i := by simp [State.readC, ht, hc]

/-! ### The instance's state and its configuration -/

@[simp] theorem InstanceState.instanceState_under (p : InstanceState) (c : Config) :
    (p.under c).instanceState = p := rfl

@[simp] theorem InstanceState.under_cfg (p : InstanceState) (c : Config) : (p.under c).cfg = c := rfl

theorem State.under_instanceState (s : State) : s.instanceState.under s.cfg = s := rfl

theorem InstanceState.under_inj {p p' : InstanceState} {c : Config} : p.under c = p'.under c ↔ p = p' :=
  ⟨fun h => by simpa using congrArg State.instanceState h, fun h => h ▸ rfl⟩

/-- A step of the machine of configuration `c` is the step on its state with `c` beside it. -/
theorem machineOf_step (c : Config) (p : InstanceState) :
    (machineOf c).step p = instanceOutcome (step (p.under c)) := rfl

end Sys2Proof.Machine
end

