-- ==== Sys2Proof/Laws/Table.lean ====
section
/-! SUPPORT. The laws of a table: a read after a write, and the canonical form every operation keeps. -/

namespace Sys2Proof.Machine

@[simp] theorem Table.read_nil (fill i : Nat) : Table.read fill [] i = fill := rfl

theorem Table.read_cons (fill j v i : Nat) (rest : Table) :
    Table.read fill ((j, v) :: rest) i = if i = j then v else Table.read fill rest i := rfl

theorem Table.read_insert (fill i v j : Nat) (t : Table) :
    (t.insert i v).read fill j = if j = i then v else t.read fill j := by
  induction t with
  | nil => simp [Table.insert, Table.read_cons]
  | cons e rest ih =>
    obtain ⟨k, u⟩ := e
    simp only [Table.insert]
    split
    · simp [Table.read_cons]
    · split
      · subst_vars
        simp only [Table.read_cons]
        split <;> simp_all
      · simp only [Table.read_cons, ih]
        by_cases hj : j = k
        · have hne : ¬ j = i := by omega
          rw [if_pos hj, if_neg hne, if_pos hj]
        · rw [if_neg hj, if_neg hj]

theorem Table.read_erase (fill i j : Nat) (t : Table) :
    (t.erase i).read fill j = if j = i then fill else t.read fill j := by
  induction t with
  | nil => simp [Table.erase]
  | cons e rest ih =>
    obtain ⟨k, u⟩ := e
    simp only [Table.erase, List.filter_cons] at ih ⊢
    by_cases hk : k = i
    · subst hk
      simp only [bne_self_eq_false, Bool.false_eq_true, if_false, ih, Table.read_cons]
      split <;> simp_all
    · have hb : (k != i) = true := by simpa using hk
      simp only [hb, if_true, Table.read_cons, ih]
      split
      · subst_vars
        simp [hk]
      · rfl

/-- A write changes the entry it names and no other (20_memory.md R66). -/
theorem Table.read_write (fill i v j : Nat) (t : Table) :
    (t.write fill i v).read fill j = if j = i then v else t.read fill j := by
  unfold Table.write
  split
  · subst_vars
    exact Table.read_erase _ i j t
  · exact Table.read_insert fill i v j t

@[simp] theorem Table.read_write_self (fill i v : Nat) (t : Table) : (t.write fill i v).read fill i = v := by
  simp [Table.read_write]

theorem Table.read_write_of_ne (fill i v j : Nat) (t : Table) (h : j ≠ i) :
    (t.write fill i v).read fill j = t.read fill j := by
  simp [Table.read_write, h]

theorem Table.wfFrom_cons (fill size bound lo j v : Nat) (rest : Table) :
    Table.wfFrom fill size bound lo ((j, v) :: rest) = true ↔
      lo ≤ j ∧ j < size ∧ v ≠ fill ∧ v < bound ∧ Table.wfFrom fill size bound (j + 1) rest = true := by
  simp [Table.wfFrom, and_assoc]

theorem Table.wfFrom_mono (fill size bound lo lo' : Nat) (t : Table) (h : lo' ≤ lo)
    (ht : t.wfFrom fill size bound lo = true) : t.wfFrom fill size bound lo' = true := by
  cases t with
  | nil => rfl
  | cons e rest =>
    rw [Table.wfFrom_cons] at ht ⊢
    exact ⟨by omega, ht.2⟩

theorem Table.wfFrom_erase (fill size bound i : Nat) (t : Table) :
    ∀ lo, t.wfFrom fill size bound lo = true → (t.erase i).wfFrom fill size bound lo = true := by
  induction t with
  | nil => intro lo _; rfl
  | cons e rest ih =>
    obtain ⟨j, v⟩ := e
    intro lo h
    rw [Table.wfFrom_cons] at h
    have hr := ih (j + 1) h.2.2.2.2
    simp only [Table.erase, List.filter_cons] at hr ⊢
    split
    · rw [Table.wfFrom_cons]
      exact ⟨h.1, h.2.1, h.2.2.1, h.2.2.2.1, hr⟩
    · exact Table.wfFrom_mono _ _ _ _ _ _ (by omega) hr

theorem Table.wfFrom_insert (fill size bound i v : Nat) (hi : i < size) (hv : v < bound) (hf : v ≠ fill)
    (t : Table) : ∀ lo, lo ≤ i → t.wfFrom fill size bound lo = true →
      (t.insert i v).wfFrom fill size bound lo = true := by
  induction t with
  | nil =>
    intro lo hlo _
    simp only [Table.insert, Table.wfFrom_cons]
    exact ⟨hlo, hi, hf, hv, rfl⟩
  | cons e rest ih =>
    obtain ⟨j, u⟩ := e
    intro lo hlo h
    rw [Table.wfFrom_cons] at h
    obtain ⟨h1, h2, h3, h4, h5⟩ := h
    simp only [Table.insert]
    split
    · rw [Table.wfFrom_cons, Table.wfFrom_cons]
      exact ⟨hlo, hi, hf, hv, by omega, h2, h3, h4, h5⟩
    · split
      · subst_vars
        rw [Table.wfFrom_cons]
        exact ⟨hlo, hi, hf, hv, h5⟩
      · rw [Table.wfFrom_cons]
        exact ⟨h1, h2, h3, h4, ih (j + 1) (by omega) h5⟩

/-- A write of a value of the width inside the table keeps the canonical form. -/
theorem Table.wf_write (fill size bound i v : Nat) (t : Table) (hi : i < size) (hv : v < bound)
    (ht : t.wf fill size bound = true) : (t.write fill i v).wf fill size bound = true := by
  unfold Table.write Table.wf at *
  split
  · exact Table.wfFrom_erase fill size bound i t 0 ht
  · rename_i hf
    exact Table.wfFrom_insert fill size bound i v hi hv hf t 0 (by omega) ht

@[simp] theorem Table.wf_nil (fill size bound : Nat) : Table.wf fill size bound [] = true := rfl

theorem Table.read_lt_of_wfFrom (fill size bound : Nat) (hfill : fill < bound) (t : Table) :
    ∀ lo, t.wfFrom fill size bound lo = true → ∀ i, t.read fill i < bound := by
  induction t with
  | nil => intro _ _ i; exact hfill
  | cons e rest ih =>
    obtain ⟨j, v⟩ := e
    intro lo h i
    rw [Table.wfFrom_cons] at h
    rw [Table.read_cons]
    split
    · exact h.2.2.2.1
    · exact ih (j + 1) h.2.2.2.2 i

/-- Every entry of a well-formed table holds a value of its width (10_state.md R30). -/
theorem Table.read_lt (fill size bound i : Nat) (t : Table) (hfill : fill < bound)
    (ht : t.wf fill size bound = true) : t.read fill i < bound :=
  Table.read_lt_of_wfFrom fill size bound hfill t 0 ht i

theorem Table.read_below (fill size bound : Nat) (t : Table) :
    ∀ lo, t.wfFrom fill size bound lo = true → ∀ i < lo, t.read fill i = fill := by
  induction t with
  | nil => intro _ _ _ _; rfl
  | cons e rest ih =>
    obtain ⟨j, v⟩ := e
    intro lo h i hi
    rw [Table.wfFrom_cons] at h
    rw [Table.read_cons, if_neg (by omega)]
    exact ih (j + 1) h.2.2.2.2 i (by omega)

theorem Table.ext_from (fill size bound : Nat) (t : Table) : ∀ (t' : Table) (lo lo' : Nat),
    t.wfFrom fill size bound lo = true → t'.wfFrom fill size bound lo' = true →
    (∀ i, t.read fill i = t'.read fill i) → t = t' := by
  induction t with
  | nil =>
    intro t' lo lo' _ h' heq
    cases t' with
    | nil => rfl
    | cons e rest =>
      obtain ⟨j, v⟩ := e
      rw [Table.wfFrom_cons] at h'
      have := heq j
      simp only [Table.read_nil, Table.read_cons, if_true] at this
      exact absurd this.symm h'.2.2.1
  | cons e rest ih =>
    obtain ⟨j, v⟩ := e
    intro t' lo lo' h h' heq
    rw [Table.wfFrom_cons] at h
    cases t' with
    | nil =>
      have := heq j
      simp only [Table.read_nil, Table.read_cons, if_true] at this
      exact absurd this h.2.2.1
    | cons e' rest' =>
      obtain ⟨k, u⟩ := e'
      rw [Table.wfFrom_cons] at h'
      have hjk : j = k := by
        rcases Nat.lt_trichotomy j k with hlt | heq' | hgt
        · have := heq j
          rw [Table.read_cons, if_pos rfl, Table.read_cons, if_neg (by omega),
            Table.read_below fill size bound rest' (k + 1) h'.2.2.2.2 j (by omega)] at this
          exact absurd this h.2.2.1
        · exact heq'
        · have := heq k
          rw [Table.read_cons, if_neg (by omega), Table.read_cons, if_pos rfl,
            Table.read_below fill size bound rest (j + 1) h.2.2.2.2 k (by omega)] at this
          exact absurd this.symm h'.2.2.1
      subst hjk
      have hv : v = u := by simpa [Table.read_cons] using heq j
      subst hv
      have hrest : rest = rest' := by
        refine ih rest' (j + 1) (j + 1) h.2.2.2.2 h'.2.2.2.2 fun i => ?_
        by_cases hi : i = j
        · subst hi
          rw [Table.read_below fill size bound rest (i + 1) h.2.2.2.2 i (by omega),
            Table.read_below fill size bound rest' (i + 1) h'.2.2.2.2 i (by omega)]
        · have := heq i
          rwa [Table.read_cons, Table.read_cons, if_neg hi, if_neg hi] at this
      rw [hrest]

/-- Canonical tables that read alike are the same data. -/
theorem Table.ext_of_read (fill size bound : Nat) (t t' : Table) (ht : t.wf fill size bound = true)
    (ht' : t'.wf fill size bound = true) (h : ∀ i, t.read fill i = t'.read fill i) : t = t' :=
  Table.ext_from fill size bound t t' 0 0 ht ht' h

end Sys2Proof.Machine
end

