-- ==== Sys2Proof/Laws/Ops.lean ====
section
/-! SUPPORT. What each shared operation and each step can do, said once: later proofs cite these and unfold no
meaning. -/

namespace Sys2Proof.Machine

/-! ### whenReady and perform -/

theorem State.whenReady_of_ready {s : State} (h : s.Ready) (f : State → State) :
    s.whenReady f = .next (f s) := by
  simp [State.whenReady, h.1, h.2]

/-- `whenReady` answers a next state only on a ready instance, and then it is the function's. -/
theorem State.whenReady_cases {s s' : State} {f : State → State} (h : s.whenReady f = .next s') :
    s.Ready ∧ s' = f s := by
  unfold State.whenReady at h
  split at h
  · cases h
  · split at h
    · cases h
    · rename_i h1 h2
      refine ⟨⟨by simpa using h1, by simpa using h2⟩, ?_⟩
      injection h with h
      exact h.symm

/-- `perform` of an accepted command on a ready instance is its effect. -/
theorem State.perform_of_accepted {s : State} {i : Instr} {effect : State → State} (h : s.Ready)
    (hc : check s.cfg i = none) : s.perform i effect = .next (effect s) := by
  simp [State.perform, State.whenReady_of_ready h, hc]

/-- `perform` of a rejected command on a ready instance is the error response, whatever the effect is. -/
theorem State.perform_of_rejected {s : State} {i : Instr} {effect : State → State} {e : CmdError}
    (h : s.Ready) (hc : check s.cfg i = some e) : s.perform i effect = .next (s.emit (errorWord e)) := by
  simp [State.perform, State.whenReady_of_ready h, hc]

/-- `perform` answers a next state only on a ready instance: the error response or the effect. -/
theorem State.perform_cases {s s' : State} {i : Instr} {effect : State → State}
    (h : s.perform i effect = .next s') :
    s.Ready ∧ ((∃ e, check s.cfg i = some e ∧ s' = s.emit (errorWord e)) ∨
      (check s.cfg i = none ∧ s' = effect s)) := by
  obtain ⟨hr, rfl⟩ := State.whenReady_cases h
  refine ⟨hr, ?_⟩
  cases hc : check s.cfg i with
  | some e => exact .inl ⟨e, rfl, by simp⟩
  | none => exact .inr ⟨rfl, by simp⟩

/-! ### the reads after a table write -/

theorem State.readT_trainT (s : State) (i j : Nat) (t : Bool) :
    (s.trainT i t).readT j = if j = i then ctrUpdate s.cfg.cbT (s.readT i) t else s.readT j := by
  simp only [State.readT, State.trainT_tabT, State.trainT_cfg, Table.read_write]

theorem State.readTG_trainTG (s : State) (i j : Nat) (t : Bool) :
    (s.trainTG i t).readTG j = if j = i then ctrUpdate s.cfg.cbT (s.readTG i) t else s.readTG j := by
  simp only [State.readTG, State.trainTG_tabTG, State.trainTG_cfg, Table.read_write]

theorem State.readTB_trainTB (s : State) (i j : Nat) (t : Bool) :
    (s.trainTB i t).readTB j = if j = i then ctrUpdate s.cfg.cbT (s.readTB i) t else s.readTB j := by
  simp only [State.readTB, State.trainTB_tabTB, State.trainTB_cfg, Table.read_write]

theorem State.readC_writeC (s : State) (i v j : Nat) :
    (s.writeC i v).readC j = if j = i then v else s.readC j := by
  simp only [State.readC, State.writeC_tabC, State.writeC_cfg, Table.read_write]

/-! ### the fields of a response word (30_encoding.md R95) -/

theorem responseWord_toNat (err pred : Bool) (data : BitVec 64) :
    (responseWord err pred data).toNat = err.toNat * 2 ^ 65 + pred.toNat * 2 ^ 64 + data.toNat := by
  unfold responseWord
  simp only [toNat_append_eq, BitVec.toNat_ofBool]
  omega

@[simp] theorem dataField_responseWord (err pred : Bool) (data : BitVec 64) :
    dataField (responseWord err pred data) = data := by
  apply BitVec.eq_of_toNat_eq
  have := data.isLt
  simp only [dataField, BitVec.extractLsb'_toNat, responseWord_toNat]
  cases err <;> cases pred <;> simp <;> omega

@[simp] theorem errBit_responseWord (err pred : Bool) (data : BitVec 64) :
    errBit (responseWord err pred data) = err := by
  have := data.isLt
  simp only [errBit, BitVec.getLsbD, responseWord_toNat, Nat.testBit_eq_decide_div_mod_eq]
  cases err <;> cases pred <;> simp <;> omega

@[simp] theorem predBit_responseWord (err pred : Bool) (data : BitVec 64) :
    predBit (responseWord err pred data) = pred := by
  have := data.isLt
  simp only [predBit, BitVec.getLsbD, responseWord_toNat, Nat.testBit_eq_decide_div_mod_eq]
  cases err <;> cases pred <;> simp <;> omega

/-! ### what an instruction and a step can do -/

/-- The effect an accepted command has (44_interface_ops.md R181): what `exec` makes of the state when no check
fails. -/
def effectOf (i : Instr) (s : State) : State :=
  match i with
  | .nop _ _ _ _ => s.emit (responseWord false false 0)
  | .puSmith _ _ t _ => s.puSmith t
  | .puGshare _ _ t a => s.puGshare t a
  | .puHybrid _ _ t a => s.puHybrid t a
  | .rd sel _ _ a => s.readOut sel a
  | .reservedOp101 _ _ _ _ => s
  | .reservedOp110 _ _ _ _ => s
  | .reservedOp111 _ _ _ _ => s

/-- Every arm of `exec` is `perform` of its effect. -/
theorem exec_eq_perform (i : Instr) (s : State) : exec i s = s.perform i (effectOf i) := by
  cases i <;> rfl

/-- What `exec` can answer as a next state: the error response of the first failed check, or the effect. -/
theorem exec_cases {i : Instr} {s s' : State} (h : exec i s = .next s') :
    s.Ready ∧ ((∃ e, check s.cfg i = some e ∧ s' = s.emit (errorWord e)) ∨
      (check s.cfg i = none ∧ s' = effectOf i s)) :=
  State.perform_cases (exec_eq_perform i s ▸ h)

/-- On a ready instance `exec` always answers a next state. -/
theorem exec_of_ready {s : State} (h : s.Ready) (i : Instr) :
    exec i s = .next (match check s.cfg i with
      | some e => s.emit (errorWord e)
      | none => effectOf i s) := by
  rw [exec_eq_perform]
  cases hc : check s.cfg i with
  | some e => simp [State.perform_of_rejected h hc]
  | none => simp [State.perform_of_accepted h hc]

theorem step_idle {s : State} (h : s.requests = []) : step s = .next s := by
  simp [step, State.takeRequest, h]

theorem step_reset {s : State} {rest : List Request} (h : s.requests = .reset :: rest) :
    step s = State.applyReset { s with requests := rest } := by
  simp [step, State.takeRequest, h]

theorem step_command {s : State} {w : CommandWord} {rest : List Request} (h : s.requests = .command w :: rest) :
    step s = exec (decode w) { s with requests := rest } := by
  simp [step, State.takeRequest, h]

/-- What a step can answer as a next state: nothing was presented and nothing changed; or reset was, and the
state is the reset one; or a command was, and `exec` answered. -/
theorem step_cases {s s' : State} (h : step s = .next s') :
    (s.requests = [] ∧ s' = s) ∨
    (∃ rest, s.requests = .reset :: rest ∧ s.cfg.legal = true ∧
      s' = { State.resetOf s.cfg with requests := rest, responses := s.responses }) ∨
    (∃ w rest, s.requests = .command w :: rest ∧ exec (decode w) { s with requests := rest } = .next s') := by
  cases hq : s.requests with
  | nil =>
    rw [step_idle hq] at h
    injection h with h
    exact .inl ⟨rfl, h.symm⟩
  | cons q rest =>
    cases q with
    | reset =>
      rw [step_reset hq] at h
      unfold State.applyReset at h
      split at h
      · cases h
      · rename_i hl
        injection h with h
        exact .inr (.inl ⟨rest, rfl, by simpa using hl, h.symm⟩)
    | command w =>
      rw [step_command hq] at h
      exact .inr (.inr ⟨w, rest, rfl, h⟩)

end Sys2Proof.Machine
end

