-- ==== Sys2Proof/Laws/Commands.lean ====
section
/-! SUPPORT. What each command's effect writes and leaves, field by field. -/

namespace Sys2Proof.Machine

section Smith

variable (s : State) (t : Bool)

theorem State.puSmith_eq : s.puSmith t = { s with
    ctrS := ctrUpdate s.cfg.cbS s.ctrS t
    responses := s.responses ++ [responseWord false (ctrTaken s.cfg.cbS s.ctrS) 0] } := rfl

@[simp] theorem State.puSmith_cfg : (s.puSmith t).cfg = s.cfg := rfl

@[simp] theorem State.puSmith_resetDone : (s.puSmith t).resetDone = s.resetDone := rfl

@[simp] theorem State.puSmith_requests : (s.puSmith t).requests = s.requests := rfl

@[simp] theorem State.puSmith_ctrS : (s.puSmith t).ctrS = ctrUpdate s.cfg.cbS s.ctrS t := rfl

@[simp] theorem State.puSmith_responses :
    (s.puSmith t).responses = s.responses ++ [responseWord false (ctrTaken s.cfg.cbS s.ctrS) 0] := rfl

end Smith

section Gshare

variable (s : State) (t : Bool) (a : Address)

theorem State.puGshare_eq : s.puGshare t a = { s with
    ghrG := ghrUpdate s.ghrG s.cfg.n t
    tabT := s.tabT.write (fillT s.cfg) (s.indexT a) (ctrUpdate s.cfg.cbT (s.readT (s.indexT a)) t)
    responses := s.responses ++
      [responseWord false (ctrTaken s.cfg.cbT (s.readT (s.indexT a))) 0] } := rfl

@[simp] theorem State.puGshare_cfg : (s.puGshare t a).cfg = s.cfg := rfl

@[simp] theorem State.puGshare_resetDone : (s.puGshare t a).resetDone = s.resetDone := rfl

@[simp] theorem State.puGshare_requests : (s.puGshare t a).requests = s.requests := rfl

@[simp] theorem State.puGshare_ghrG : (s.puGshare t a).ghrG = ghrUpdate s.ghrG s.cfg.n t := rfl

@[simp] theorem State.puGshare_responses : (s.puGshare t a).responses =
    s.responses ++ [responseWord false (ctrTaken s.cfg.cbT (s.readT (s.indexT a))) 0] := rfl

/-- 41_gshare.md R137: the entry of the index and no other. -/
theorem State.puGshare_readT (j : Nat) : (s.puGshare t a).readT j =
    if j = s.indexT a then ctrUpdate s.cfg.cbT (s.readT (s.indexT a)) t else s.readT j :=
  State.readT_trainT { s with ghrG := ghrUpdate s.ghrG s.cfg.n t } (s.indexT a) j t

end Gshare

section Hybrid

variable (s : State) (t : Bool) (a : Address)

theorem State.puHybrid_eq : s.puHybrid t a = { s with
    ghrGG := ghrUpdate s.ghrGG s.cfg.n t
    tabTG := if s.useG a then
        s.tabTG.write (fillT s.cfg) (s.indexTG a) (ctrUpdate s.cfg.cbT (s.readTG (s.indexTG a)) t)
      else s.tabTG
    tabTB := if s.useG a then s.tabTB
      else s.tabTB.write (fillT s.cfg) (s.indexTB a) (ctrUpdate s.cfg.cbT (s.readTB (s.indexTB a)) t)
    tabC := s.tabC.write (fillC s.cfg) (s.indexC a)
      (chooserUpdate s.cfg.cbC (s.readC (s.indexC a)) (s.predG a) (s.predB a) t)
    responses := s.responses ++
      [responseWord false (if s.useG a then s.predG a else s.predB a) 0] } := by
  unfold State.puHybrid
  cases s.useG a <;> rfl

@[simp] theorem State.puHybrid_cfg : (s.puHybrid t a).cfg = s.cfg := by simp [State.puHybrid_eq]

@[simp] theorem State.puHybrid_resetDone : (s.puHybrid t a).resetDone = s.resetDone := by
  simp [State.puHybrid_eq]

@[simp] theorem State.puHybrid_requests : (s.puHybrid t a).requests = s.requests := by
  simp [State.puHybrid_eq]

@[simp] theorem State.puHybrid_ghrGG : (s.puHybrid t a).ghrGG = ghrUpdate s.ghrGG s.cfg.n t := by
  simp [State.puHybrid_eq]

@[simp] theorem State.puHybrid_responses : (s.puHybrid t a).responses = s.responses ++
    [responseWord false (if s.useG a then s.predG a else s.predB a) 0] := by simp [State.puHybrid_eq]

/-- 43_hybrid.md R166, the Gshare component's table. -/
theorem State.puHybrid_readTG (j : Nat) : (s.puHybrid t a).readTG j =
    if s.useG a = true ∧ j = s.indexTG a then ctrUpdate s.cfg.cbT (s.readTG (s.indexTG a)) t
    else s.readTG j := by
  simp only [State.readTG, State.puHybrid_eq]
  cases s.useG a <;> simp [Table.read_write]

/-- 43_hybrid.md R166, the Bimodal component's table. -/
theorem State.puHybrid_readTB (j : Nat) : (s.puHybrid t a).readTB j =
    if s.useG a = false ∧ j = s.indexTB a then ctrUpdate s.cfg.cbT (s.readTB (s.indexTB a)) t
    else s.readTB j := by
  simp only [State.readTB, State.puHybrid_eq]
  cases s.useG a <;> simp [Table.read_write]

/-- 43_hybrid.md R165, the chooser table. -/
theorem State.puHybrid_readC (j : Nat) : (s.puHybrid t a).readC j =
    if j = s.indexC a then chooserUpdate s.cfg.cbC (s.readC (s.indexC a)) (s.predG a) (s.predB a) t
    else s.readC j := by
  simp only [State.readC, State.puHybrid_eq, Table.read_write]

end Hybrid

/-- An RD answers one word and changes nothing else. -/
theorem State.readOut_cases (s : State) (sel : Sel) (a : Address) : ∃ w, s.readOut sel a = s.emit w := by
  unfold State.readOut
  split
  · exact ⟨_, rfl⟩
  · exact ⟨_, rfl⟩

/-- An effect answers at most one word after those already emitted, and leaves the configuration, the reset flag
and the request channel. -/
theorem effectOf_frame (i : Instr) (s : State) : (effectOf i s).cfg = s.cfg ∧
    (effectOf i s).resetDone = s.resetDone ∧ (effectOf i s).requests = s.requests := by
  cases i with
  | rd sel r t a =>
    obtain ⟨w, hw⟩ := s.readOut_cases sel a
    simp [effectOf, hw]
  | _ => simp [effectOf]

/-- An accepted command has an element to act on: the reserved operations are never accepted. -/
theorem effectOf_responses {i : Instr} {s : State} (h : check s.cfg i = none) :
    ∃ w, (effectOf i s).responses = s.responses ++ [w] := by
  cases i with
  | rd sel r t a =>
    obtain ⟨w, hw⟩ := s.readOut_cases sel a
    exact ⟨w, by simp [effectOf, hw]⟩
  | reservedOp101 => cases h
  | reservedOp110 => cases h
  | reservedOp111 => cases h
  | _ => exact ⟨_, by simp [effectOf]; rfl⟩

end Sys2Proof.Machine
end

