-- ==== Sys2Proof/Laws/PerInstr.lean ====
section
/-! SUPPORT. Facts stated per instruction: the OP field of each command's word is its row's OP value
(30_encoding.md R82, R88), written out here as a number. -/

namespace Sys2Proof.Laws.OpField

/-- The row's OP value in 30_encoding.md R88. -/
def tableOp : Instr → Nat
  | .nop _ _ _ _ => 0
  | .puSmith _ _ _ _ => 1
  | .puGshare _ _ _ _ => 2
  | .puHybrid _ _ _ _ => 3
  | .rd _ _ _ _ => 4
  | .reservedOp101 _ _ _ _ => 5
  | .reservedOp110 _ _ _ _ => 6
  | .reservedOp111 _ _ _ _ => 7

/-- Bits [71:69] of the word are the row's OP value. -/
def Statement (i : Instr) : Prop := (encode i).op.toNat = tableOp i

theorem nop (sel : BitVec 3) (r t : Bool) (a : Address) : Statement (.nop sel r t a) := by
  simp [Statement, encode, packWord_op, Instr.op, tableOp]

theorem puSmith (sel : BitVec 3) (r t : Bool) (a : Address) : Statement (.puSmith sel r t a) := by
  simp [Statement, encode, packWord_op, Instr.op, tableOp]

theorem puGshare (sel : BitVec 3) (r t : Bool) (a : Address) : Statement (.puGshare sel r t a) := by
  simp [Statement, encode, packWord_op, Instr.op, tableOp]

theorem puHybrid (sel : BitVec 3) (r t : Bool) (a : Address) : Statement (.puHybrid sel r t a) := by
  simp [Statement, encode, packWord_op, Instr.op, tableOp]

theorem rd (sel : Sel) (r t : Bool) (a : Address) : Statement (.rd sel r t a) := by
  simp [Statement, encode, packWord_op, Instr.op, tableOp]

theorem reservedOp101 (sel : BitVec 3) (r t : Bool) (a : Address) : Statement (.reservedOp101 sel r t a) := by
  simp [Statement, encode, packWord_op, Instr.op, tableOp]

theorem reservedOp110 (sel : BitVec 3) (r t : Bool) (a : Address) : Statement (.reservedOp110 sel r t a) := by
  simp [Statement, encode, packWord_op, Instr.op, tableOp]

theorem reservedOp111 (sel : BitVec 3) (r t : Bool) (a : Address) : Statement (.reservedOp111 sel r t a) := by
  simp [Statement, encode, packWord_op, Instr.op, tableOp]

end Sys2Proof.Laws.OpField
end

