-- ==== Sys2Proof/Tests/Slice0.lean ====
section
/-! SUPPORT. The model's own tests. Every expected value is the spec's: a comment before each group names the
section of 95_test_vectors.md or the rule it is taken from. The last part shows, for each obligation with
hypotheses, concrete values that meet them. -/

namespace Sys2Proof.Machine

/-- The state of an outcome that goes on. -/
def nextOf (o : Host.Outcome State Fault Refusal) : Option State :=
  match o with
  | .next s => some s
  | .fault _ => none
  | .refused _ => none

/-- The reason of an outcome that is refused. -/
def refusalOf (o : Host.Outcome State Fault Refusal) : Option Refusal :=
  match o with
  | .next _ => none
  | .fault _ => none
  | .refused r => some r

/-- A configuration with the largest implementation bounds R7 allows. -/
def config (p : Params) : Config := ⟨p, 64, 62⟩

def smithState (b v : Nat) : State := { State.resetOf (config (.smith b)) with ctrS := v }

def gshareState (m n b : Nat) (t : Table) (g : Nat) : State :=
  { State.resetOf (config (.gshare m n b)) with tabT := t, ghrG := g }

def bimodalState (m b : Nat) (t : Table) : State := { State.resetOf (config (.bimodal m b)) with tabT := t }

/-- The instance of program P3. -/
def p3Config : Config := config (.hybrid 1 2 2 2 3 2 1)

def p3State (c tg tb : Table) (gg : Nat) : State :=
  { State.resetOf p3Config with tabC := c, tabTG := tg, tabTB := tb, ghrGG := gg }

/-- The instance with 1-bit counters of 95_test_vectors.md section 2.6. -/
def oneBitConfig : Config := config (.hybrid 0 1 1 1 1 1 0)

/-- One step on the command word `w`, presented alone. -/
def stepWord (s : State) (w : CommandWord) : Option State := nextOf (step (s.present [w]))

/-- The first `n` entries of a table. -/
def entries (read : Nat → Nat) (n : Nat) : List Nat := (List.range n).map read

/-! ### WellFormed: each check refuses an ill-formed term (30_encoding.md R90, R91) -/

theorem test_wellFormed_accepts_each_operation :
    (Instr.nop 0 false false 0).wellFormed = true ∧ (Instr.puSmith 0 false true 0x400).wellFormed = true ∧
    (Instr.puGshare 0 false false 4).wellFormed = true ∧ (Instr.puHybrid 0 false true 8).wellFormed = true ∧
    (Instr.rd .ghr false false 0).wellFormed = true := by decide

theorem test_wellFormed_refuses_nop_fields :
    (Instr.nop 1 false false 0).wellFormed = false ∧ (Instr.nop 0 true false 0).wellFormed = false ∧
    (Instr.nop 0 false true 0).wellFormed = false ∧ (Instr.nop 0 false false 1).wellFormed = false := by decide

theorem test_wellFormed_refuses_pu_fields :
    (Instr.puSmith 1 false true 0).wellFormed = false ∧ (Instr.puSmith 0 true true 0).wellFormed = false ∧
    (Instr.puGshare 1 false true 0).wellFormed = false ∧ (Instr.puGshare 0 true true 0).wellFormed = false ∧
    (Instr.puHybrid 1 false true 0).wellFormed = false ∧ (Instr.puHybrid 0 true true 0).wellFormed = false := by
  decide

theorem test_wellFormed_refuses_rd_fields :
    (Instr.rd .ghr true false 0).wellFormed = false ∧ (Instr.rd .ghr false true 0).wellFormed = false ∧
    (Instr.rd .reserved110 false false 0).wellFormed = false ∧
    (Instr.rd .reserved111 false false 0).wellFormed = false := by decide

theorem test_wellFormed_refuses_reserved_operations :
    (Instr.reservedOp101 0 false false 0).wellFormed = false ∧
    (Instr.reservedOp110 0 false false 0).wellFormed = false ∧
    (Instr.reservedOp111 0 false false 0).wellFormed = false := by decide

/-! ### Decoding: words written out in 95_test_vectors.md P1 to P5 and sections 2.4 to 2.8 -/

theorem test_decode_nop : decode 0x000000000000000000#72 = .nop 0 false false 0 := by decide

/-- A word with every field of its own: SEL = 1, R = 0, T = 1, A = 1, laid out bit by bit from R81. -/
theorem test_decode_nop_fields : decode (0b00000101#8 ++ 1#64) = .nop 1 false true 1 := by decide

theorem test_decode_puSmith : decode 0x21FFFFFFFFFFFFFFFF#72 = .puSmith 0 false true 0xFFFFFFFFFFFFFFFF := by
  decide

theorem test_decode_puGshare : decode 0x410000000000000104#72 = .puGshare 0 false true 0x104 := by decide

/-- P5: `440000000000000100` has SEL = 001, `420000000000000100` has R = 1. -/
theorem test_decode_puGshare_fields :
    decode 0x440000000000000100#72 = .puGshare 1 false false 0x100 ∧
    decode 0x420000000000000100#72 = .puGshare 0 true false 0x100 := by decide

theorem test_decode_puHybrid : decode 0x610000000000000008#72 = .puHybrid 0 false true 8 := by decide

theorem test_decode_rd_selectors :
    decode 0x800000000000000000#72 = .rd .smithCtr false false 0 ∧
    decode 0x840000000000000003#72 = .rd .gshareTable false false 3 ∧
    decode 0x880000000000000001#72 = .rd .chooser false false 1 ∧
    decode 0x8C0000000000000002#72 = .rd .hybGshareTable false false 2 ∧
    decode 0x900000000000000003#72 = .rd .hybBimodalTable false false 3 ∧
    decode 0x940000000000000000#72 = .rd .ghr false false 0 ∧
    decode 0x980000000000000000#72 = .rd .reserved110 false false 0 ∧
    decode 0x9C0000000000000000#72 = .rd .reserved111 false false 0 := by decide

/-- P5: `850000000000000000` has T = 1. -/
theorem test_decode_rd_field : decode 0x850000000000000000#72 = .rd .gshareTable false true 0 := by decide

theorem test_decode_reserved :
    decode 0xA00000000000000000#72 = .reservedOp101 0 false false 0 ∧
    decode 0xC00000000000000000#72 = .reservedOp110 0 false false 0 ∧
    decode 0xE4FFFFFFFFFFFFFFFF#72 = .reservedOp111 1 false false 0xFFFFFFFFFFFFFFFF := by decide

theorem test_encode_words :
    encode (.nop 0 false false 0) = 0#72 ∧
    encode (.puSmith 0 false true 0x400) = 0x210000000000000400#72 ∧
    encode (.puGshare 0 false false 0x104) = 0x400000000000000104#72 ∧
    encode (.puHybrid 0 false true 8) = 0x610000000000000008#72 ∧
    encode (.rd .hybGshareTable false false 3) = 0x8C0000000000000003#72 ∧
    encode (.reservedOp111 1 false false 0xFFFFFFFFFFFFFFFF) = 0xE4FFFFFFFFFFFFFFFF#72 := by decide

/-- The host's view of a row: the table's bit i is bit i of the word. -/
theorem test_decodeTableWord :
    decodeTableWord 72 0x210000000000000400 = some (.puSmith 0 false true 0x400) ∧
    decodeTableWord 72 (2 ^ 72) = none := by decide

/-- The check order of R101, on P5's instance and words. -/
theorem test_check_priority :
    let c := config (.gshare 2 2 3)
    check c (decode 0x610000000000000100#72) = some .wrongKind ∧
    check c (decode 0x420000000000000100#72) = some .rsvdField ∧
    check c (decode 0x880000000000000000#72) = some .selAbsent ∧
    check c (decode 0x980000000000000000#72) = some .rsvdSel ∧
    check c (decode 0x840000000000000004#72) = some .indexRange ∧
    check c (decode 0xE4FFFFFFFFFFFFFFFF#72) = some .rsvdOp ∧
    check c (decode 0x410000000000000100#72) = none := by decide

/-! ### Counter, indices, history (95_test_vectors.md sections 2.1 to 2.3) -/

theorem test_counter_ends :
    ctrInc 2 3 = 3 ∧ ctrDec 0 = 0 ∧ ctrInc 64 (2 ^ 63 - 1) = 2 ^ 63 ∧ ctrInc 64 (2 ^ 64 - 1) = 2 ^ 64 - 1 ∧
    ctrUpdate 3 7 true = 7 ∧ ctrUpdate 3 4 false = 3 ∧ ctrUpdate 1 1 false = 0 := by decide

theorem test_counter_threshold :
    ctrTaken 1 1 = true ∧ ctrTaken 2 1 = false ∧ ctrTaken 2 2 = true ∧ ctrTaken 3 3 = false ∧
    ctrTaken 64 (2 ^ 63 - 1) = false ∧ ctrTaken 64 (2 ^ 63) = true := by decide

theorem test_pcIndex :
    pcIndex 0x1234 4 = 0xD ∧ pcIndex 0x1F 2 = 3 ∧ pcIndex 0xDEADBEEF 10 = 0x3BB ∧ pcIndex 0xDEADBEEF 0 = 0 ∧
    pcIndex 0xFFFFFFFFFFFFFFFC 62 = 0x3FFFFFFFFFFFFFFF ∧
    pcIndex 0x8000000000000000 62 = 0x2000000000000000 := by decide

theorem test_gshareIndex :
    gshareIndex 0x4 0b10 2 2 = 3 ∧ gshareIndex 0x4 0b11 2 0 = 1 ∧ gshareIndex 0x10 0b11 4 2 = 7 ∧
    gshareIndex 0x3C 0b1111 4 4 = 0 ∧ gshareIndex 0xABC 0 0 0 = 0 := by decide

theorem test_ghrUpdate :
    ghrUpdate 0b101 3 true = 0b110 ∧ ghrUpdate 0b101 3 false = 0b010 ∧ ghrUpdate 1 1 false = 0 ∧
    ghrUpdate 0 0 true = 0 ∧ ghrUpdate 0x00 8 true = 0x80 := by decide

/-! ### One step of each command -/

/-- 2.7: NOP answers 0. -/
theorem test_step_nop :
    (stepWord (gshareState 2 2 3 [(0, 5)] 0b10) 0x000000000000000000#72).map (fun s => (s.responses, s.tabT, s.ghrG)) =
      some ([0#66], [(0, 5)], 0b10) := by decide

/-- P5: NOP with A = 1 answers E_RSVD_FIELD. -/
theorem test_step_nop_reserved_field :
    (stepWord (gshareState 2 2 3 [] 0) 0x000000000000000001#72).map (·.responses) =
      some [0x20000000000000003#66] := by decide

/-- 2.4: S = 1 predicts not taken, and the outcome moves it to 2, whatever the address. -/
theorem test_step_puSmith :
    (stepWord (smithState 2 1) 0x21FFFFFFFFFFFFFFFF#72).map (fun s => (s.responses, s.ctrS)) =
      some ([0#66], 2) := by decide

/-- P1 record 4, the source's scenario as 90_conflicts.md C1 settles it: S = 2 predicts taken. -/
theorem test_step_puSmith_on_threshold :
    (stepWord (smithState 2 2) 0x200000000000000400#72).map (fun s => (s.responses, s.ctrS)) =
      some ([0x10000000000000000#66], 1) := by decide

/-- P2 record 2: the index is 3, from the history before the command. -/
theorem test_step_puGshare :
    (stepWord (gshareState 2 2 3 [(0, 5)] 0b10) 0x400000000000000104#72).map
        (fun s => (s.responses, entries s.readT 4, s.ghrG)) =
      some ([0x10000000000000000#66], [5, 4, 4, 3], 0b01) := by decide

/-- P4 record 4: the address 0xC aliases 0x4 and the counter reaches its floor. -/
theorem test_step_puGshare_bimodal :
    (stepWord (bimodalState 1 3 [(1, 1)]) 0x40000000000000000C#72).map
        (fun s => (s.responses, entries s.readT 2, s.ghrG)) = some ([0#66], [4, 0], 0) := by decide

/-- P3 record 6: Gshare is selected and trained, Bimodal's table is left alone, the chooser rises. -/
theorem test_step_puHybrid :
    (stepWord (p3State [(0, 2)] [] [(0, 3)] 0b11) 0x610000000000000000#72).map
        (fun s => (s.responses, entries s.readC 2, entries s.readTG 4, entries s.readTB 4, s.ghrGG)) =
      some ([0x10000000000000000#66], [3, 1], [4, 4, 4, 5], [3, 4, 4, 4], 0b11) := by decide

/-- 2.6, the 1-bit table, record 5: Gshare is selected and wrong, Bimodal right, the chooser falls to 0. -/
theorem test_step_puHybrid_chooser_falls :
    (stepWord { State.resetOf oneBitConfig with tabC := [(0, 1)], tabTG := [(0, 0), (1, 0)] }
        0x610000000000000000#72).map
        (fun s => (s.responses, entries s.readC 1, entries s.readTG 2, entries s.readTB 2, s.ghrGG)) =
      some ([0#66], [0], [1, 0], [1, 1], 1) := by decide

/-- P3's end state: `RD HYB_GSHARE_TABLE, 3` answers 7 and changes nothing. -/
theorem test_step_rd :
    let s := p3State [(0, 2)] [(1, 5), (2, 3), (3, 7)] [(0, 3), (1, 3)] 0b10
    stepWord s 0x8C0000000000000003#72 = some { s with responses := [0x00000000000000007#66] } := by decide

/-- 2.8: `RD SMITH_CTR, 1` answers E_INDEX_RANGE. -/
theorem test_step_rd_index_range :
    stepWord (smithState 3 4) 0x800000000000000001#72 =
      some { smithState 3 4 with responses := [0x20000000000000006#66] } := by decide

/-- P5 and R91: every reserved OP answers E_RSVD_OP. -/
theorem test_step_reserved :
    let s := gshareState 2 2 3 [] 0
    (stepWord s 0xA00000000000000000#72).map (·.responses) = some [0x20000000000000001#66] ∧
    (stepWord s 0xC00000000000000000#72).map (·.responses) = some [0x20000000000000001#66] ∧
    (stepWord s 0xE4FFFFFFFFFFFFFFFF#72).map (·.responses) = some [0x20000000000000001#66] := by decide

/-- R230: reset of a trained HYBRID instance. -/
theorem test_step_reset :
    let s := p3State [(0, 2)] [(1, 5), (2, 3), (3, 7)] [(0, 3), (1, 3)] 0b10
    nextOf (step { s with requests := [.reset] }) = some (p3State [] [] [] 0) := by decide

/-- R8: the machine of P1's configuration, which is its argument, performs P1's first record. -/
theorem test_machineOf :
    let p := ((smithState 2 2).present [0x210000000000000400#72]).instanceState
    match (machineOf (config (.smith 2))).step p with
    | .next p' => p' = { p with ctrS := 3, requests := [], responses := [0x10000000000000000#66] }
    | _ => False := rfl

/-- R214: nothing presented, nothing changes. -/
theorem test_step_idle : nextOf (step (smithState 2 1)) = some (smithState 2 1) := by decide

/-- R231 and R203: the two refusals. -/
theorem test_step_refuses :
    refusalOf (step { (smithState 2 1).present [0#72] with resetDone := false }) = some .beforeFirstReset ∧
    refusalOf (step { State.resetOf (config (.smith 0)) with requests := [.reset] }) =
      some .illegalConfiguration := by decide

/-- The host's placing of a word: the next step performs it. -/
theorem test_withFetchWord :
    (nextOf (step (State.reset.withFetchWord 72 0x880000000000000001))).map (·.responses) =
      some [0x00000000000000001#66] := by decide

/-! ### Text forms (00_scope.md R3, 30_encoding.md R96 to R100) -/

theorem test_identityText : identityText p3Config = "hybrid:1,2,2,2;cbt=3;cbc=2;ci=1".toList := by decide

/-- R96: hexadecimal with `0x` or decimal, below 2^64. -/
theorem test_readNumber :
    readNumber "0x400".toList = some 0x400#64 ∧ readNumber "400".toList = some 400#64 ∧
    readNumber "0x10000000000000000".toList = none ∧ readNumber "18446744073709551616".toList = none ∧
    readNumber "0x".toList = none ∧ readNumber "4c".toList = none := by decide

/-- R100's example, and P1's first response. -/
theorem test_word_texts :
    commandText 0x210000000000000400#72 = "210000000000000400".toList ∧
    responseText 0x10000000000000000#66 = "10000000000000000".toList ∧
    readCommandText "40000000000000000c".toList = some 0x40000000000000000C#72 ∧
    readResponseText "40000000000000000".toList = none := by decide

/-- R96 and R97, on P2's instance. -/
theorem test_assembleWords :
    let c := config (.gshare 2 2 3)
    assembleWords c "BR 0x104, n".toList = some [0x400000000000000104#72] ∧
    assembleWords c "RD GHR, 0".toList = some [0x940000000000000000#72] ∧
    assembleWords c "DUMP".toList = some [0x840000000000000000#72, 0x840000000000000001#72, 0x840000000000000002#72,
      0x840000000000000003#72] ∧
    assembleWords c "pu.gshare 0x104, n".toList = none ∧ assembleWords c "RD GHR".toList = none := by decide

/-- P1's trace in its three line ends, and lines R99 refuses by number: empty, `0x` prefix, 17 digits, other
outcome, extra character. -/
theorem test_transcribe :
    transcribe "400 t\n400 n\r\n400 n".toList =
      [.ok ⟨0x400, true⟩, .ok ⟨0x400, false⟩, .ok ⟨0x400, false⟩] ∧
    transcribe "\n0x4 t\n00000000000000004 t\n4 T\n4 t \nFFFFFFFFFFFFFFFF n\n".toList =
      [.error 1, .error 2, .error 3, .error 4, .error 5, .ok ⟨0xFFFFFFFFFFFFFFFF, false⟩] := by decide

/-! ### Witnesses: values that meet the hypotheses of each obligation, clause by clause -/

/-- Every OP and every SEL at its place, with A at its largest value. -/
theorem witness_DecoderReadsFieldTable :
    hasFields 0x000000000000000000#72 0 0 0 0 0 ∧ hasFields 0x23FFFFFFFFFFFFFFFF#72 1 0 1 1 (2 ^ 64 - 1) ∧
    hasFields 0x5F0000000000000000#72 2 7 1 1 0 ∧ hasFields 0x600000000000000001#72 3 0 0 0 1 ∧
    hasFields 0xA00000000000000000#72 5 0 0 0 0 ∧ hasFields 0xC00000000000000000#72 6 0 0 0 0 ∧
    hasFields 0xFFFFFFFFFFFFFFFFFF#72 7 7 1 1 (2 ^ 64 - 1) ∧
    (hasFields 0x800000000000000000#72 4 0 0 0 0 ∧ hasFields 0x840000000000000000#72 4 1 0 0 0 ∧
      hasFields 0x880000000000000000#72 4 2 0 0 0 ∧ hasFields 0x8C0000000000000000#72 4 3 0 0 0 ∧
      hasFields 0x900000000000000000#72 4 4 0 0 0 ∧ hasFields 0x940000000000000000#72 4 5 0 0 0 ∧
      hasFields 0x980000000000000000#72 4 6 0 0 0 ∧ hasFields 0x9C0000000000000000#72 4 7 0 0 0) := by
  unfold hasFields; and_intros <;> decide

theorem witness_LegalityCheckOrder_pu :
    (hasFields 0xA00000000000000000#72 5 0 0 0 0 ∧ hasFields 0xE4FFFFFFFFFFFFFFFF#72 7 1 0 0 (2 ^ 64 - 1)) ∧
    (hasFields 0x260000000000000000#72 1 1 1 0 0 ∧ p3Config.kind ≠ .smith) ∧
    (hasFields 0x400000000000000000#72 2 0 0 0 0 ∧ p3Config.kind ≠ .gshare ∧ p3Config.kind ≠ .bimodal) ∧
    (hasFields 0x600000000000000000#72 3 0 0 0 0 ∧ (config (.smith 1)).kind ≠ .hybrid) ∧
    (hasFields 0x000000000000000001#72 0 0 0 0 1 ∧ hasFields 0x010000000000000000#72 0 0 0 1 0) ∧
    (hasFields 0x220000000000000000#72 1 0 1 0 0 ∧ (config (.smith 1)).kind = .smith) ∧
    (hasFields 0x440000000000000000#72 2 1 0 0 0 ∧ (config (.bimodal 0 1)).kind = .bimodal) ∧
    (hasFields 0x610000000000000000#72 3 0 0 1 0 ∧ p3Config.kind = .hybrid) := by
  unfold hasFields; and_intros <;> decide

theorem witness_LegalityCheckOrder_rd :
    let c := config (.gshare 2 2 3)
    (hasFields 0x9B0000000000000000#72 4 6 1 1 0) ∧
    (hasFields 0x980000000000000000#72 4 6 0 0 0 ∧ hasFields 0x9C0000000000000000#72 4 7 0 0 0) ∧
    (hasFields 0x880000000000000000#72 4 2 0 0 0 ∧ ¬ specPresent 2 c.kind) ∧
    (hasFields 0x840000000000000004#72 4 1 0 0 4 ∧ specPresent 1 c.kind ∧ specSize 1 c ≤ 4) ∧
    (hasFields 0x840000000000000003#72 4 1 0 0 3 ∧ specPresent 1 c.kind ∧ 3 < specSize 1 c) := by
  unfold hasFields specPresent specSize; intro c; and_intros <;> decide

/-- Two configurations that differ, with one kind and one set of sizes. -/
theorem witness_LegalityNeedsKindAndSizesOnly :
    config (.gshare 2 2 3) ≠ config (.gshare 2 1 1) ∧
    (config (.gshare 2 2 3)).kind = (config (.gshare 2 1 1)).kind ∧
    ∀ sel : Sel, sel.size (config (.gshare 2 2 3)) = sel.size (config (.gshare 2 1 1)) :=
  ⟨by decide, rfl, fun sel => by cases sel <;> rfl⟩

/-- An accepted command, and the largest index a table can have; SMITH_CTR and GHR have index 0 alone. -/
theorem witness_AcceptedBySomeConfiguration :
    check (config (.gshare 2 2 3)) (.rd .gshareTable false false 3) = none ∧
    ((config (.bimodal 62 1)).legal = true ∧
      check (config (.bimodal 62 1)) (.rd .gshareTable false false 0x3FFFFFFFFFFFFFFF) = none) ∧
    ((Instr.rd .chooser false false 0x3FFFFFFFFFFFFFFF).wellFormed = true ∧
      (0x3FFFFFFFFFFFFFFF#64).toNat < (if Sel.chooser = .smithCtr ∨ Sel.chooser = .ghr then 1 else 2 ^ 62)) ∧
    ((Instr.rd .ghr false false 0).wellFormed = true ∧
      (0#64).toNat < (if Sel.ghr = .smithCtr ∨ Sel.ghr = .ghr then 1 else 2 ^ 62)) ∧
    ((Instr.rd .smithCtr false false 1).wellFormed = true ∧
      ¬ (1#64).toNat < (if Sel.smithCtr = .smithCtr ∨ Sel.smithCtr = .ghr then 1 else 2 ^ 62)) := by decide

theorem witness_HexTextReadsBack :
    readCommandText "E4FFFFFFFFFFFFFFFF".toList = some 0xE4FFFFFFFFFFFFFFFF#72 ∧
    readResponseText "3FFFFFFFFFFFFFFFF".toList = some 0x3FFFFFFFFFFFFFFFF#66 := by decide

theorem witness_AssemblerAcceptsItsRows :
    readNumber "0".toList = some 0 ∧ readNumber "0xFFFFFFFFFFFFFFFF".toList = some 0xFFFFFFFFFFFFFFFF#64 ∧
    readNumber "18446744073709551615".toList = some 0xFFFFFFFFFFFFFFFF#64 ∧
    (config (.smith 1)).kind = .smith ∧ (config (.bimodal 0 1)).kind = .bimodal ∧
    (config (.gshare 0 0 1)).kind = .gshare ∧ p3Config.kind = .hybrid := by decide

/-- The largest number that is read and the smallest that is not, in both bases, and a token of a trace. -/
theorem witness_NumbersReadByValue :
    isNumber 16 "FFFFFFFFFFFFFFFF".toList (2 ^ 64 - 1) ∧ isNumber 10 "18446744073709551615".toList (2 ^ 64 - 1) ∧
    isNumber 16 "10000000000000000".toList (2 ^ 64) ∧ isNumber 10 "18446744073709551616".toList (2 ^ 64) ∧
    isNumber 16 "c4".toList 0xC4 := by
  refine ⟨⟨by decide, [15, 15, 15, 15, 15, 15, 15, 15, 15, 15, 15, 15, 15, 15, 15, 15], ?_, rfl⟩,
    ⟨by decide, [1, 8, 4, 4, 6, 7, 4, 4, 0, 7, 3, 7, 0, 9, 5, 5, 1, 6, 1, 5], ?_, rfl⟩,
    ⟨by decide, [1, 0, 0, 0, 0, 0, 0, 0, 0, 0, 0, 0, 0, 0, 0, 0, 0], ?_, rfl⟩,
    ⟨by decide, [1, 8, 4, 4, 6, 7, 4, 4, 0, 7, 3, 7, 0, 9, 5, 5, 1, 6, 1, 6], ?_, rfl⟩,
    ⟨by decide, [12, 4], ?_, rfl⟩⟩ <;> simp [isDigit]

theorem witness_AssemblerRefusesOtherLines :
    assembleLine p3Config "BR 0x400, t".toList = some [.puHybrid 0 false true 0x400] ∧
    assembleLine (config (.smith 1)) "DUMP".toList = some [.rd .smithCtr false false 0] := by decide

theorem witness_GoodTraceTranscribes :
    let ls : List (Text × Nat × Bool × Bool) := [("400".toList, 0x400, true, false), ("c".toList, 0xC, false, true)]
    (∀ l ∈ ls, readHex l.1 = some l.2.1 ∧ l.1.length ≤ 16) ∧
    readHex "FFFFFFFFFFFFFFFF".toList = some (2 ^ 64 - 1) ∧ "FFFFFFFFFFFFFFFF".toList.length ≤ 16 := by decide

/-- A good line, and an empty one, which has no accepted form. -/
theorem witness_BadTraceLinesRefused :
    ((traceLines "400 t\n\n".toList)[0]? = some ⟨"400 t".toList, true⟩ ∧ readHex "400".toList = some 0x400 ∧
      (⟨"400 t".toList, true⟩ : TraceLine).body = "400".toList ++ [' ', 't']) ∧
    ((traceLines "400 t\n\n".toList)[1]? = some ⟨[], true⟩ ∧
      ¬ ∃ (token : Text) (v : Nat) (t : Bool), readHex token = some v ∧ token.length ≤ 16 ∧
        (⟨[], true⟩ : TraceLine).body = token ++ [' ', if t then 't' else 'n']) := by
  refine ⟨by decide, by decide, ?_⟩
  rintro ⟨token, v, t, -, -, h⟩
  cases token <;> cases h

theorem witness_CounterIncrement : 2 ≤ 2 ^ 2 - 1 ∧ 3 ≤ 2 ^ 2 - 1 ∧ 1 ≤ 2 ^ 1 - 1 := by decide

theorem witness_CounterDecrement : (0 = 0) ∧ 0 < 1 := by decide

theorem witness_CounterUpdate : 2 ≤ 2 ^ 2 - 1 ∧ 3 ≤ 2 ^ 2 - 1 ∧ 0 ≤ 2 ^ 1 - 1 := by decide

theorem witness_CounterPredictsUpperHalf : 1 ≤ 1 ∧ 2 ^ (1 - 1) ≤ 1 ∧ ¬ 2 ^ (1 - 1) ≤ 0 := by decide

theorem witness_CounterStaysInRange : 3 ≤ 2 ^ 2 - 1 ∧ 0 ≤ 2 ^ 1 - 1 := by decide

theorem witness_CounterDistances : 1 ≤ 1 ∧ 3 < 2 ^ (3 - 1) ∧ ¬ 4 < 2 ^ (3 - 1) := by decide

theorem witness_AddressSignNeverMatters : 62 ≤ 62 ∧ (0x8000000000000000#64).msb = true := by decide

theorem witness_IndicesStayInTheirTables :
    ((gshareState 2 2 3 [(3, 2)] 3).Inv ∧ (gshareState 2 2 3 [(3, 2)] 3).cfg.kind = .gshare) ∧
    ((bimodalState 0 1 [(0, 0)]).Inv ∧ (bimodalState 0 1 [(0, 0)]).cfg.kind = .bimodal) ∧
    ((p3State [(0, 2)] [(3, 7)] [(1, 3)] 2).Inv ∧ (p3State [(0, 2)] [(3, 7)] [(1, 3)] 2).cfg.kind = .hybrid) := by
  decide

/-- P4's addresses 0x4 and 0xC, and two addresses that alias in every table of P3. -/
theorem witness_AliasedAddressesActAlike :
    ((0x4#64).toNat / 4 % 2 ^ (bimodalState 1 3 []).cfg.m = (0xC#64).toNat / 4 % 2 ^ (bimodalState 1 3 []).cfg.m) ∧
    (let s := p3State [] [] [] 0
     (0x4#64).toNat / 4 % 2 ^ s.cfg.k = (0x15#64).toNat / 4 % 2 ^ s.cfg.k ∧
      (0x4#64).toNat / 4 % 2 ^ s.cfg.m1 = (0x15#64).toNat / 4 % 2 ^ s.cfg.m1 ∧
      (0x4#64).toNat / 4 % 2 ^ s.cfg.m2 = (0x15#64).toNat / 4 % 2 ^ s.cfg.m2) := by decide

theorem witness_HistoryShiftsOutcomeIn : 0 < 2 ^ 0 ∧ (1 < 2 ^ 1 ∧ 0 < 1) ∧ (0b101 < 2 ^ 3 ∧ 0 < 3 ∧ 0 ≠ 3 - 1) := by
  decide

theorem witness_PuSmithResult : (smithState 2 1).Ready ∧ (smithState 2 1).cfg.kind = .smith := by decide

theorem witness_SmithOneBitHoldsLastOutcome : (smithState 1 0).Inv ∧ (smithState 1 0).cfg.params = .smith 1 := by
  decide

theorem witness_PuGshareResult :
    ((gshareState 2 2 3 [(0, 5)] 2).Ready ∧ (gshareState 2 2 3 [(0, 5)] 2).cfg.kind = .gshare) ∧
    ((bimodalState 1 3 []).Ready ∧ (bimodalState 1 3 []).cfg.kind = .bimodal) := by decide

theorem witness_PuHybridResult : (p3State [] [] [] 0).Ready ∧ (p3State [] [] [] 0).cfg.kind = .hybrid := by decide

/-- P3 record 6 (Gshare selected, the components disagree) and record 1 (Bimodal selected, they agree). -/
theorem witness_PuHybridFrame :
    (let s := p3State [(0, 2)] [] [(0, 3)] 3
     s.Ready ∧ s.cfg.kind = .hybrid ∧ s.useG 0 = true ∧ s.predG 0 ≠ s.predB 0 ∧
      ∃ s', exec (.puHybrid 0 false true 0) s = .next s') ∧
    (let s := p3State [] [] [] 0
     s.Ready ∧ s.cfg.kind = .hybrid ∧ s.useG 0 = false ∧ s.predG 0 = s.predB 0 ∧
      ∃ s', exec (.puHybrid 0 false false 0) s = .next s') :=
  ⟨⟨by decide, by decide, by decide, by decide, _, rfl⟩, ⟨by decide, by decide, by decide, by decide, _, rfl⟩⟩

/-- The three pairs of component predictions that the clauses tell apart, on the 1-bit instance of 2.6 (records 1,
2 and 5, both outcomes run). -/
theorem witness_ChooserUpdateTable :
    (let s := State.resetOf oneBitConfig
     s.Inv ∧ s.cfg.kind = .hybrid ∧ s.predG 0 = s.predB 0 ∧ ∃ s', exec (.puHybrid 0 false false 0) s = .next s') ∧
    (let s : State := { State.resetOf oneBitConfig with tabTB := [(0, 0)] }
     s.Inv ∧ s.predG 0 = true ∧ s.predB 0 = false ∧ (∃ s', exec (.puHybrid 0 false true 0) s = .next s') ∧
      ∃ s', exec (.puHybrid 0 false false 0) s = .next s') ∧
    (let s : State := { State.resetOf oneBitConfig with tabC := [(0, 1)], tabTG := [(0, 0), (1, 0)] }
     s.Inv ∧ s.predG 0 = false ∧ s.predB 0 = true ∧ (∃ s', exec (.puHybrid 0 false true 0) s = .next s') ∧
      ∃ s', exec (.puHybrid 0 false false 0) s = .next s') :=
  ⟨⟨by decide, by decide, by decide, _, rfl⟩, ⟨by decide, by decide, by decide, ⟨_, rfl⟩, _, rfl⟩,
    by decide, by decide, by decide, ⟨_, rfl⟩, _, rfl⟩

/-- P3 after its record 3, with record 4, a record at the other chooser index, and record 5's outcome: at index 0
Gshare is right and Bimodal wrong both times, and the counter starts below the threshold. -/
theorem witness_ChooserBias :
    let s := p3State [(0, 0)] [] [(0, 1)] 0
    let rs : List Record := [⟨0, true⟩, ⟨4, false⟩, ⟨0, true⟩]
    s.Inv ∧ s.cfg.kind = .hybrid ∧ s.readC 0 < 2 ^ (s.cfg.cbC - 1) ∧ (0#64).toNat / 4 % 2 ^ s.cfg.k = 0 ∧
    ∀ (k : Nat) (t : State) (r : Record), Host.Core.run Sys2Proof.core k (s.presentTrace rs) = .next t →
      rs[k]? = some r → (r.address.toNat / 4 % 2 ^ s.cfg.k == 0) = true →
      t.predG r.address = r.taken ∧ t.predB r.address = !r.taken := by
  refine ⟨by decide, by decide, by decide, by decide, fun k t r hrun hr hi => ?_⟩
  match k with
  | 0 => cases hr; cases hrun; decide
  | 1 => cases hr; exact absurd hi (by decide)
  | 2 => cases hr; cases hrun; decide
  | _ + 3 => cases hr

theorem witness_NopResult :
    (smithState 3 4).Ready ∧ (7#3 ≠ 0 ∨ false = true ∨ false = true ∨ 0#64 ≠ 0) ∧
    (0#3 ≠ 0 ∨ true = true ∨ false = true ∨ 0#64 ≠ 0) ∧ (0#3 ≠ 0 ∨ false = true ∨ true = true ∨ 0#64 ≠ 0) ∧
    (0#3 ≠ 0 ∨ false = true ∨ false = true ∨ 1#64 ≠ 0) := by decide

/-- The largest legal index and the smallest illegal one of every element. -/
theorem witness_RdResult :
    ((smithState 3 4).Ready ∧ (smithState 3 4).cfg.kind = .smith ∧ (0#64 = 0) ∧ (1#64 ≠ 0)) ∧
    ((gshareState 2 2 3 [] 0).Ready ∧ (gshareState 2 2 3 [] 0).cfg.kind = .gshare ∧
      (3#64).toNat < 2 ^ (gshareState 2 2 3 [] 0).cfg.m ∧ 2 ^ (gshareState 2 2 3 [] 0).cfg.m ≤ (4#64).toNat) ∧
    ((bimodalState 0 1 []).Ready ∧ (bimodalState 0 1 []).cfg.kind = .bimodal ∧
      (0#64).toNat < 2 ^ (bimodalState 0 1 []).cfg.m ∧ 2 ^ (bimodalState 0 1 []).cfg.m ≤ (1#64).toNat) ∧
    (let s := p3State [] [] [] 0
     s.Ready ∧ s.cfg.kind = .hybrid ∧ (1#64).toNat < 2 ^ s.cfg.k ∧ (3#64).toNat < 2 ^ s.cfg.m1 ∧
      (3#64).toNat < 2 ^ s.cfg.m2 ∧ 2 ^ s.cfg.k ≤ (2#64).toNat ∧ 2 ^ s.cfg.m1 ≤ (4#64).toNat ∧
      2 ^ s.cfg.m2 ≤ (0xFFFFFFFFFFFFFFFF#64).toNat) := by decide

theorem witness_RdReturnsWholeValue :
    (gshareState 2 2 3 [(3, 7)] 2).Inv ∧
    check (gshareState 2 2 3 [(3, 7)] 2).cfg (.rd .gshareTable false false 3) = none := by decide

theorem witness_RdAndNopChangeNoState :
    ((Instr.nop 0 false false 0).op = 0b000#3 ∧ ∃ s', exec (.nop 0 false false 0) (smithState 2 1) = .next s') ∧
    ((Instr.rd .ghr false false 0).op = 0b100#3 ∧
      ∃ s', exec (.rd .ghr false false 0) (gshareState 2 2 3 [] 2) = .next s') :=
  ⟨⟨rfl, _, rfl⟩, ⟨rfl, _, rfl⟩⟩

theorem witness_ReservedOperationsAnswerError : (smithState 3 4).Ready ∧ (p3State [] [] [] 0).Ready := by decide

theorem witness_IllegalPuAnswersItsCode :
    ((p3State [] [] [] 0).Ready ∧ (p3State [] [] [] 0).cfg.kind ≠ .smith ∧ (p3State [] [] [] 0).cfg.kind ≠ .gshare ∧
      (p3State [] [] [] 0).cfg.kind ≠ .bimodal ∧ (p3State [] [] [] 0).cfg.kind = .hybrid) ∧
    ((smithState 3 4).Ready ∧ (smithState 3 4).cfg.kind ≠ .hybrid ∧ (smithState 3 4).cfg.kind = .smith) ∧
    ((bimodalState 0 1 []).Ready ∧ (bimodalState 0 1 []).cfg.kind = .bimodal) ∧
    ((gshareState 2 2 3 [] 0).Ready ∧ (gshareState 2 2 3 [] 0).cfg.kind = .gshare) ∧
    (1#3 ≠ 0 ∨ false = true) ∧ (0#3 ≠ 0 ∨ true = true) := by decide

theorem witness_RejectionChangesNothing :
    (smithState 3 4).Ready ∧ check (smithState 3 4).cfg (.rd .ghr false false 0) = some .selAbsent ∧
    check (smithState 3 4).cfg (.reservedOp111 1 false false 0) = some .rsvdOp := by decide

theorem witness_ResponseFields : (smithState 3 4).Ready ∧ (gshareState 2 2 3 [] 0).Ready := by decide

theorem witness_StepRunsDecodedCommand :
    ((smithState 2 1).present [0x210000000000000400#72]).requests = .command 0x210000000000000400#72 :: [] ∧
    ((smithState 2 1).present [encode (.nop 0 false false 0)]).requests =
      .command (encode (.nop 0 false false 0)) :: [] ∧
    ({ smithState 2 1 with requests := [.reset] } : State).requests = .reset :: [] := by decide

theorem witness_IdleChangesNothing : (smithState 2 1).requests = [] := by decide

theorem witness_ConfigurationNeverChanges :
    (∃ s', step ((smithState 2 1).present [0x210000000000000400#72]) = .next s') ∧
    (∃ s', step { smithState 2 1 with requests := [.reset] } = .next s') ∧
    (∃ p', Host.Core.run (machineOf p3Config) 2
      ((State.resetOf p3Config).present [0x600000000000000000#72, 0#72]).instanceState = .next p') ∧
    ∃ q, Host.Core.run (machineOf (config (.smith 0))) 1
      ((State.resetOf (config (.smith 0))).present [0#72]).instanceState = .refused q :=
  ⟨⟨_, rfl⟩, ⟨_, rfl⟩, ⟨_, rfl⟩, _, rfl⟩

/-- A step of each kind that changes an element. -/
theorem witness_OnlyItsOwnCommandWritesAnElement :
    (∃ s', step ((smithState 2 1).present [0x210000000000000400#72]) = .next s' ∧ s'.ctrS ≠ (smithState 2 1).ctrS) ∧
    (∃ s', step ((gshareState 2 2 3 [] 0).present [0x410000000000000100#72]) = .next s' ∧
      s'.tabT ≠ (gshareState 2 2 3 [] 0).tabT) ∧
    (∃ s', step ((p3State [] [] [] 0).present [0x600000000000000000#72]) = .next s' ∧
      s'.tabTB ≠ (p3State [] [] [] 0).tabTB) :=
  ⟨⟨_, rfl, by decide⟩, ⟨_, rfl, by decide⟩, _, rfl, by decide⟩

theorem witness_OnlyItsOwnCommandWritesAnElement_no_reset :
    ∀ rest, ((smithState 2 1).present [0x210000000000000400#72]).requests ≠ .reset :: rest :=
  fun _ h => by cases h

theorem witness_CommandsBeforeResetRefused :
    let s : State := { smithState 2 1 with resetDone := false }
    s.cfg.legal = true ∧ s.resetDone = false := by decide

/-- Configurations at the two ends of R203's ranges, legal and illegal, of every kind. -/
theorem witness_IllegalConfigurationRefused :
    (config (.smith 64)).legal = true ∧ (config (.smith 0)).legal = false ∧ (config (.smith 65)).legal = false ∧
    (config (.bimodal 62 1)).legal = true ∧ (config (.bimodal 63 1)).legal = false ∧
    (config (.gshare 2 2 3)).legal = true ∧ (config (.gshare 2 3 3)).legal = false ∧
    (config (.hybrid 0 1 1 0 1 1 1)).legal = true ∧ (config (.hybrid 0 1 1 0 1 1 2)).legal = false ∧
    (⟨.smith 1, 0, 0⟩ : Config).legal = false ∧ (⟨.smith 1, 65, 0⟩ : Config).legal = false ∧
    (⟨.smith 1, 1, 63⟩ : Config).legal = false ∧ (⟨.smith 1, 1, 0⟩ : Config).legal = true := by decide

theorem witness_IllegalConfigurationRefused_reset :
    let s : State := { State.resetOf (config (.smith 0)) with requests := [.reset] }
    s.cfg.legal = false ∧ s.requests = .reset :: [] := by decide

/-- A trained instance of every kind with reset presented. -/
theorem witness_ResetSetsEveryElement :
    (let s : State := { smithState 2 0 with requests := [.reset] }
     s.cfg.legal = true ∧ s.requests = .reset :: [] ∧ s.cfg.kind = .smith) ∧
    (let s : State := { gshareState 2 2 3 [(0, 7)] 3 with requests := [.reset, .command 0] }
     s.cfg.legal = true ∧ s.requests = .reset :: [.command 0] ∧ s.cfg.kind = .gshare) ∧
    (let s : State := { bimodalState 1 3 [(0, 7)] with requests := [.reset] }
     s.cfg.legal = true ∧ s.requests = .reset :: [] ∧ s.cfg.kind = .bimodal) ∧
    (let s : State := { p3State [(0, 3)] [(0, 7)] [(3, 0)] 3 with requests := [.reset] }
     s.cfg.legal = true ∧ s.requests = .reset :: [] ∧ s.cfg.kind = .hybrid) := by decide

theorem witness_ResetDiscardsTraining :
    let s : State := { p3State [(0, 3)] [(0, 7)] [(3, 0)] 3 with requests := [.reset], resetDone := false }
    s.cfg.legal = true ∧ s.requests = .reset :: [] := by decide

theorem witness_ResetMeetsInvariant : (config (.hybrid 62 62 62 62 64 64 0)).legal = true := by decide

theorem witness_StepKeepsInvariant :
    (let s := (p3State [(0, 2)] [] [(0, 3)] 3).present [0x610000000000000000#72]
     s.Inv ∧ ∃ s', step s = .next s') ∧
    (let s := (gshareState 2 2 3 [(0, 7)] 3).present [0x410000000000000100#72]
     s.Inv ∧ ∃ s', step s = .next s') :=
  ⟨⟨by decide, _, rfl⟩, by decide, _, rfl⟩

theorem witness_ReadyMachineNeverStops : ((p3State [] [] [] 0).present [0xFFFFFFFFFFFFFFFFFF#72]).Ready := by decide

/-- An accepted and a rejected command. -/
theorem witness_OneResponsePerCommand :
    let ws := [0x210000000000000400#72, 0x400000000000000000#72]
    ((smithState 2 1).present ws).Ready ∧ ((smithState 2 1).present ws).requests = ws.map .command ∧ 1 < ws.length ∧
    check (smithState 2 1).cfg (decode 0x400000000000000000#72) = some .wrongKind := by decide

theorem witness_ResponsesAreNeverRead :
    (∃ s', step ((smithState 2 1).present [0x210000000000000400#72]) = .next s') ∧
    ∃ q, step { (smithState 2 1).present [0#72] with resetDone := false } = .refused q :=
  ⟨⟨_, rfl⟩, _, rfl⟩

theorem witness_HistoryHoldsLastOutcomes :
    (config (.gshare 3 3 2)).legal = true ∧ (config (.gshare 3 3 2)).kind = .gshare ∧
    0 < (config (.gshare 3 3 2)).n ∧ 2 < (config (.gshare 3 3 2)).n := by decide

/-- L1-5's instance with three taken records, and with three not-taken ones from a full history. -/
theorem witness_HistoryFillsAndClears :
    (let s := gshareState 3 3 2 [] 0
     let rs : List Record := [⟨0, true⟩, ⟨0, true⟩, ⟨0, true⟩]
     s.Inv ∧ s.cfg.kind = .gshare ∧ rs.length = s.cfg.n ∧ (∀ r ∈ rs, r.taken = true) ∧ s.ghrG = 0) ∧
    (let s := gshareState 3 3 2 [] 7
     let rs : List Record := [⟨0, false⟩, ⟨0, false⟩, ⟨0, false⟩]
     s.Inv ∧ s.cfg.kind = .gshare ∧ rs.length = s.cfg.n ∧ ∀ r ∈ rs, r.taken = false) := by decide

theorem witness_BimodalIsGshareWithoutHistory : (⟨.bimodal 1 3, 64, 62⟩ : Config).legal = true := by decide

theorem witness_SmithIsOneEntryTable :
    (⟨.smith 1, 1, 0⟩ : Config).legal = true ∧ (⟨.smith 64, 64, 62⟩ : Config).legal = true := by decide

theorem witness_HybridHistoryIsGshareHistory :
    (⟨.hybrid 0 0 0 0 1 1 1, 1, 0⟩ : Config).legal = true ∧ p3Config.legal = true := by decide

theorem witness_DumpReadsEveryValueInOrder :
    ((smithState 2 0).Ready ∧ (smithState 2 0).cfg.kind = .smith) ∧
    ((gshareState 0 0 1 [] 0).Ready ∧ (gshareState 0 0 1 [] 0).cfg.kind = .gshare) ∧
    ((bimodalState 1 3 []).Ready ∧ (bimodalState 1 3 []).cfg.kind = .bimodal) ∧
    ((p3State [] [] [] 0).Ready ∧ (p3State [] [] [] 0).cfg.kind = .hybrid) := by decide

end Sys2Proof.Machine
end

section
namespace Sys2Proof.Machine

/-! ### Before the first reset (10_state.md R49) -/

/-- A legal instance that was never reset refuses, whatever the function would make of its state. -/
theorem State.whenReady_of_not_resetDone {s : State} (hl : s.cfg.legal = true) (hr : s.resetDone = false)
    (f : State → State) : s.whenReady f = .refused .beforeFirstReset := by
  simp [State.whenReady, hl, hr]

/-- The refusal comes before the checks of 30_encoding.md R101, so it does not depend on the command. -/
theorem State.perform_of_not_resetDone {s : State} (hl : s.cfg.legal = true) (hr : s.resetDone = false)
    (i : Instr) (effect : State → State) : s.perform i effect = .refused .beforeFirstReset :=
  State.whenReady_of_not_resetDone hl hr _

/-- Settles O45: every arm of `exec` is a `perform`, which refuses before the first reset. -/
theorem commandsBeforeResetRefused : Obligations.CommandsBeforeResetRefused := by
  intro s i hl hr
  rw [exec_eq_perform]
  exact State.perform_of_not_resetDone hl hr i (effectOf i)

end Sys2Proof.Machine
end

section
namespace Sys2Proof

open Machine

/-! ### The words of each row and its checks (30_encoding.md R88, R89, R101) -/

/-- The fields of R81 as numbers are what the decoder extracts. -/
theorem toNat_of_hasFields {w : CommandWord} {op sel r t a : Nat} (h : hasFields w op sel r t a) :
    w.op.toNat = op ∧ w.sel.toNat = sel ∧ w.r.toNat = r ∧ w.t.toNat = t ∧ w.a.toNat = a := by
  obtain ⟨hsel, hr, ht, ha, hw⟩ := h
  rw [CommandWord.op_toNat, CommandWord.sel_toNat, CommandWord.r_toNat, CommandWord.t_toNat, CommandWord.a_toNat]
  omega

theorem toNat_eq_zero_iff {n : Nat} {x : BitVec n} : x.toNat = 0 ↔ x = 0 := by
  simp [BitVec.toNat_eq]

section
variable {w : CommandWord}

theorem decode_of_op_zero (h : w.op.toNat = 0) : decode w = .nop w.sel w.r w.t w.a := by
  simp only [decode, h]

theorem decode_of_op_one (h : w.op.toNat = 1) : decode w = .puSmith w.sel w.r w.t w.a := by
  simp only [decode, h]

theorem decode_of_op_two (h : w.op.toNat = 2) : decode w = .puGshare w.sel w.r w.t w.a := by
  simp only [decode, h]

theorem decode_of_op_three (h : w.op.toNat = 3) : decode w = .puHybrid w.sel w.r w.t w.a := by
  simp only [decode, h]

theorem decode_of_op_four (h : w.op.toNat = 4) : decode w = .rd (Sel.ofBits w.sel) w.r w.t w.a := by
  simp only [decode, h]

/-- The three reserved rows fail the first check, whatever their fields are (R91). -/
theorem check_decode_of_op_reserved (c : Config) (h : w.op.toNat = 5 ∨ w.op.toNat = 6 ∨ w.op.toNat = 7) :
    check c (decode w) = some .rsvdOp := by
  rcases h with h | h | h <;> simp only [decode, h, check]

theorem decodeFor_of_check_some {c : Config} {e : CmdError} (h : check c (decode w) = some e) :
    decodeFor c w = .error e := by
  simp only [decodeFor, h]

theorem decodeFor_of_check_none {c : Config} (h : check c (decode w) = none) : decodeFor c w = .ok (decode w) := by
  simp only [decodeFor, h]

end

theorem Sel.isReserved_iff (x : Sel) : x.isReserved = true ↔ x.toBits.toNat = 6 ∨ x.toBits.toNat = 7 := by
  cases x <;> decide

theorem Sel.present_iff_specPresent (x : Sel) (k : Kind) : x.present k = true ↔ specPresent x.toBits.toNat k := by
  unfold specPresent
  cases x <;> cases k <;> decide

theorem Sel.isReserved_of_present {x : Sel} {k : Kind} (h : x.present k = true) : x.isReserved = false := by
  cases x with
  | reserved110 | reserved111 => cases h
  | _ => rfl

theorem Sel.size_eq_specSize {x : Sel} (h : x.isReserved = false) (c : Config) :
    x.size c = specSize x.toBits.toNat c := by
  cases x with
  | reserved110 | reserved111 => cases h
  | _ => rfl

theorem puFieldCheck_of_nonzero {sel : BitVec 3} {r : Bool} (h : sel ≠ 0 ∨ r = true) :
    puFieldCheck sel r = some .rsvdField := if_pos h

section
variable (c : Config) {x : Sel} {sel : BitVec 3} {r t : Bool} {a : Address}

theorem check_nop_of_nonzero (h : sel ≠ 0 ∨ r = true ∨ t = true ∨ a ≠ 0) :
    check c (.nop sel r t a) = some .rsvdField := if_pos h

theorem check_rd_of_nonzero (h : r = true ∨ t = true) : check c (.rd x r t a) = some .rsvdField := if_pos h

theorem check_rd_of_isReserved (hr : r = false) (ht : t = false) (hx : x.isReserved = true) :
    check c (.rd x r t a) = some .rsvdSel := by
  simp [check, hr, ht, hx]

theorem check_rd_of_absent (hr : r = false) (ht : t = false) (hx : x.isReserved = false)
    (hp : x.present c.kind = false) : check c (.rd x r t a) = some .selAbsent := by
  simp [check, hr, ht, hx, hp]

theorem check_rd_of_size_le (hr : r = false) (ht : t = false) (hp : x.present c.kind = true)
    (ha : x.size c ≤ a.toNat) : check c (.rd x r t a) = some .indexRange := by
  simp [check, hr, ht, Sel.isReserved_of_present hp, hp, ha]

end

end Sys2Proof
end

section
namespace Sys2Proof.Machine

/-! ### The order of the checks (30_encoding.md R101) -/

section
variable {c : Config} {w : CommandWord}

theorem decodeFor_nop (hop : w.op.toNat = 0) :
    (w.sel.toNat ≠ 0 ∨ w.r.toNat ≠ 0 ∨ w.t.toNat ≠ 0 ∨ w.a.toNat ≠ 0 → decodeFor c w = .error .rsvdField) ∧
    (w.sel.toNat = 0 → w.r.toNat = 0 → w.t.toNat = 0 → w.a.toNat = 0 → decodeFor c w = .ok (decode w)) := by
  have hdec := decode_of_op_zero hop
  simp only [ne_eq, toNat_eq_zero_iff, Bool.toNat_eq_zero, Bool.not_eq_false]
  constructor
  · intro hnz
    exact decodeFor_of_check_some (hdec ▸ check_nop_of_nonzero c hnz)
  · intro hsel hr ht ha
    exact decodeFor_of_check_none (hdec ▸ (check_nop_eq_none c _ _ _ _).2 ⟨hsel, hr, ht, ha⟩)

theorem decodeFor_wrongKind
    (h : (w.op.toNat = 1 ∧ c.kind ≠ .smith) ∨ (w.op.toNat = 2 ∧ c.kind ≠ .gshare ∧ c.kind ≠ .bimodal) ∨
      (w.op.toNat = 3 ∧ c.kind ≠ .hybrid)) : decodeFor c w = .error .wrongKind := by
  apply decodeFor_of_check_some
  rcases h with ⟨hop, hk⟩ | ⟨hop, hk⟩ | ⟨hop, hk⟩
  · rw [decode_of_op_one hop]
    exact if_pos hk
  · rw [decode_of_op_two hop]
    exact if_pos hk
  · rw [decode_of_op_three hop]
    exact if_pos hk

/-- On its own kind a PU command is left with the field check. -/
theorem check_decode_of_own_kind
    (h : (w.op.toNat = 1 ∧ c.kind = .smith) ∨ (w.op.toNat = 2 ∧ (c.kind = .gshare ∨ c.kind = .bimodal)) ∨
      (w.op.toNat = 3 ∧ c.kind = .hybrid)) : check c (decode w) = puFieldCheck w.sel w.r := by
  rcases h with ⟨hop, hk⟩ | ⟨hop, hk⟩ | ⟨hop, hk⟩
  · simp [decode_of_op_one hop, check, hk]
  · rcases hk with hk | hk <;> simp [decode_of_op_two hop, check, hk]
  · simp [decode_of_op_three hop, check, hk]

/-- One argument for the three PU rows, whose field check is the same (R90). -/
theorem decodeFor_of_check_eq_puFieldCheck (h : check c (decode w) = puFieldCheck w.sel w.r) :
    (w.sel.toNat ≠ 0 ∨ w.r.toNat ≠ 0 → decodeFor c w = .error .rsvdField) ∧
    (w.sel.toNat = 0 → w.r.toNat = 0 → decodeFor c w = .ok (decode w)) := by
  simp only [ne_eq, toNat_eq_zero_iff, Bool.toNat_eq_zero, Bool.not_eq_false]
  constructor
  · intro hnz
    exact decodeFor_of_check_some (h.trans (puFieldCheck_of_nonzero hnz))
  · intro hsel hr
    exact decodeFor_of_check_none (h.trans ((puFieldCheck_eq_none _ _).2 ⟨hsel, hr⟩))

/-- The SEL code is replaced by the selector it stands for, whose columns are the spec's. -/
theorem decodeFor_rd (hop : w.op.toNat = 4) :
    (w.r.toNat ≠ 0 ∨ w.t.toNat ≠ 0 → decodeFor c w = .error .rsvdField) ∧
    (w.r.toNat = 0 → w.t.toNat = 0 → w.sel.toNat = 6 ∨ w.sel.toNat = 7 → decodeFor c w = .error .rsvdSel) ∧
    (w.r.toNat = 0 → w.t.toNat = 0 → w.sel.toNat ≠ 6 → w.sel.toNat ≠ 7 → ¬ specPresent w.sel.toNat c.kind →
      decodeFor c w = .error .selAbsent) ∧
    (w.r.toNat = 0 → w.t.toNat = 0 → specPresent w.sel.toNat c.kind → specSize w.sel.toNat c ≤ w.a.toNat →
      decodeFor c w = .error .indexRange) ∧
    (w.r.toNat = 0 → w.t.toNat = 0 → specPresent w.sel.toNat c.kind → w.a.toNat < specSize w.sel.toNat c →
      decodeFor c w = .ok (decode w)) := by
  have hdec := decode_of_op_four hop
  rw [← Sel.toBits_ofBits w.sel]
  generalize Sel.ofBits w.sel = x at hdec ⊢
  simp only [ne_eq, Bool.toNat_eq_zero, Bool.not_eq_false, ← Sel.present_iff_specPresent, Bool.not_eq_true]
  refine ⟨fun hnz => ?_, fun hr ht hx => ?_, fun hr ht h6 h7 hp => ?_, fun hr ht hp ha => ?_,
    fun hr ht hp ha => ?_⟩
  · exact decodeFor_of_check_some (hdec ▸ check_rd_of_nonzero c hnz)
  · exact decodeFor_of_check_some (hdec ▸ check_rd_of_isReserved c hr ht (x.isReserved_iff.2 hx))
  · have hx : x.isReserved = false := by simp [← Bool.not_eq_true, Sel.isReserved_iff, h6, h7]
    exact decodeFor_of_check_some (hdec ▸ check_rd_of_absent c hr ht hx hp)
  · rw [← Sel.size_eq_specSize (Sel.isReserved_of_present hp)] at ha
    exact decodeFor_of_check_some (hdec ▸ check_rd_of_size_le c hr ht hp ha)
  · have hx := Sel.isReserved_of_present hp
    rw [← Sel.size_eq_specSize hx] at ha
    exact decodeFor_of_check_none (hdec ▸ (check_rd_eq_none c x _ _ _).2 ⟨hr, ht, hx, hp, ha⟩)

end

/-- Settles O5: OP selects the row, and each row's checks answer in the pseudocode's order. -/
theorem legalityCheckOrder : Obligations.LegalityCheckOrder := by
  intro c w op sel r t a h
  obtain ⟨rfl, rfl, rfl, rfl, rfl⟩ := toNat_of_hasFields h
  exact ⟨fun hop => decodeFor_of_check_some (check_decode_of_op_reserved c hop),
    fun hop hk => decodeFor_wrongKind (.inl ⟨hop, hk⟩),
    fun hop hg hb => decodeFor_wrongKind (.inr (.inl ⟨hop, hg, hb⟩)),
    fun hop hk => decodeFor_wrongKind (.inr (.inr ⟨hop, hk⟩)),
    fun hop => (decodeFor_nop hop).1,
    fun hop => (decodeFor_nop hop).2,
    fun hk => decodeFor_of_check_eq_puFieldCheck (check_decode_of_own_kind hk),
    decodeFor_rd⟩

end Sys2Proof.Machine
end

section
namespace Sys2Proof.Machine

/-! ### Words as hexadecimal digits (30_encoding.md R100) -/

@[simp] theorem length_hexDigits (k v : Nat) : (hexDigits k v).length = k := by
  induction k generalizing v with
  | zero => rfl
  | succ k ih => simp [hexDigits, ih]

/-- Digit `i` of `k`, counted from the most significant, has the weight 16 ^ (k - 1 - i). -/
theorem getElem?_hexDigits (k v i : Nat) (h : i < k) :
    (hexDigits k v)[i]? = some (hexChar (v / 16 ^ (k - 1 - i) % 16)) := by
  induction k generalizing v with
  | zero => omega
  | succ k ih =>
    rcases Nat.lt_succ_iff_lt_or_eq.1 h with hi | rfl
    · have hexp : k + 1 - 1 - i = k - 1 - i + 1 := by omega
      rw [hexDigits, List.getElem?_append_left (by simpa using hi), ih _ hi, Nat.div_div_eq_div_mul, hexp,
        Nat.pow_succ']
    · simp [hexDigits]

theorem hexValue_hexChar : ∀ d < 16, hexValue (hexChar d) = some d := by decide

theorem exists_hexDigit (k v i : Nat) (h : i < k) :
    ∃ ch, (hexDigits k v)[i]? = some ch ∧ hexValue ch = some (v / 16 ^ (k - 1 - i) % 16) :=
  ⟨_, getElem?_hexDigits k v i h, hexValue_hexChar _ (Nat.mod_lt _ (by decide))⟩

/-- ERR and PRED are bits [65:64] (R95), which the top digit of 17 holds. -/
theorem errBit_predBit_toNat (w : ResponseWord) :
    2 * (errBit w).toNat + (predBit w).toNat = w.toNat / 16 ^ 16 % 16 := by
  have := w.isLt
  simp only [errBit, predBit, BitVec.getLsbD, Nat.toNat_testBit]
  omega

theorem dataField_toNat (w : ResponseWord) : (dataField w).toNat = w.toNat % 16 ^ 16 := by
  simp [dataField, BitVec.extractLsb'_toNat]

/-- The lowest `n` digits of a value are those of its remainder. -/
theorem mod_pow_div_pow_mod {v j n : Nat} (h : j < n) : v % 16 ^ n / 16 ^ j % 16 = v / 16 ^ j % 16 := by
  obtain ⟨d, rfl⟩ := Nat.exists_eq_add_of_lt h
  rw [Nat.add_assoc, Nat.pow_add, Nat.mod_mul_right_div_self,
    Nat.mod_mod_of_dvd _ (dvd_pow_self 16 (Nat.succ_ne_zero d))]

/-- Settles O8: the digit at each place of 18 for a command, and of 17 for a response. -/
theorem wordsAsHexDigits : Obligations.WordsAsHexDigits := by
  refine ⟨fun w => ⟨length_hexDigits _ _, fun k hk => exists_hexDigit 18 w.toNat k hk⟩,
    fun w => ⟨length_hexDigits _ _, ?_, fun k hk => ?_⟩, by decide⟩
  · rw [errBit_predBit_toNat]
    exact exists_hexDigit 17 w.toNat 0 (by decide)
  · have hplace : 17 - 1 - (k + 1) = 15 - k := by omega
    rw [dataField_toNat, mod_pow_div_pow_mod (by omega), ← hplace]
    exact exists_hexDigit 17 w.toNat (k + 1) (by omega)

end Sys2Proof.Machine
end

section
namespace Sys2Proof.Machine

/-! ### Saturating counters (40_counter.md R113 to R116) -/

/-- Within the range the increment is a clamp at the ceiling: there `v + 1` stops being a value of the counter. -/
theorem ctrInc_eq_min {b v : Nat} (hv : v ≤ ceiling b) : ctrInc b v = min (v + 1) (ceiling b) := by
  unfold ctrInc
  split
  next hceil =>
    subst hceil
    exact (Nat.min_eq_right (Nat.le_succ _)).symm
  next hne => exact (Nat.min_eq_left (Nat.lt_of_le_of_ne hv hne)).symm

/-- The test for 0 is what truncated subtraction does. -/
theorem ctrDec_eq_sub_one (v : Nat) : ctrDec v = v - 1 := by
  cases v with
  | zero => rfl
  | succ v => exact if_neg (Nat.succ_ne_zero v)

theorem threshold_le_ceiling {b : Nat} (hb : 1 ≤ b) : threshold b ≤ ceiling b :=
  Nat.le_sub_one_of_lt (threshold_lt_pow2 b hb)

theorem ctrTaken_zero (b : Nat) : ctrTaken b 0 = false := by
  rw [Bool.eq_false_iff, Ne, ctrTaken_iff]
  exact Nat.not_le_of_lt (pow2_pos (b - 1))

theorem ctrTaken_ceiling {b : Nat} (hb : 1 ≤ b) : ctrTaken b (ceiling b) = true :=
  (ctrTaken_iff b _).2 (threshold_le_ceiling hb)

/-- Settles O15: at the ceiling the clamp holds, below it the sum. -/
theorem counterIncrement : Obligations.CounterIncrement :=
  fun _ _ hv => ctrInc_eq_min hv

/-- Settles O16: both clauses are cases of the truncated subtraction. -/
theorem counterDecrement : Obligations.CounterDecrement := by
  intro v
  rw [ctrDec_eq_sub_one]
  exact ⟨fun h0 => by rw [h0], fun _ => rfl⟩

/-- Settles O17: the outcome selects the increment or the decrement. -/
theorem counterUpdate : Obligations.CounterUpdate := by
  intro b v hv
  rw [ctrUpdate_true, ctrUpdate_false]
  exact ⟨ctrInc_eq_min hv, ctrDec_eq_sub_one v⟩

/-- Settles O18: the threshold is above 0 and, from width 1 on, not above the ceiling. -/
theorem counterPredictsUpperHalf : Obligations.CounterPredictsUpperHalf :=
  fun b v hb => ⟨ctrTaken_iff b v, ctrTaken_zero b, ctrTaken_ceiling hb⟩

end Sys2Proof.Machine
end

section
namespace Sys2Proof.Machine

/-! ### Indices and history in arithmetic (41_gshare.md R131, R132, R134) -/

/-- The logical shift by 2 divides by 4, and the mask keeps the remainder. -/
theorem pcIndex_eq (a : Address) (w : Nat) : pcIndex a w = a.toNat / 4 % 2 ^ w := by
  rw [pcIndex, lowmask_eq, Nat.and_two_pow_sub_one_eq_mod, BitVec.toNat_ushiftRight, Nat.shiftRight_eq_div_pow]

theorem gshareIndex_eq (a : Address) (g m n : Nat) :
    gshareIndex a g m n = if n = 0 then a.toNat / 4 % 2 ^ m else g ^^^ (a.toNat / 4 % 2 ^ m) := by
  simp only [gshareIndex, pcIndex_eq, Nat.pos_iff_ne_zero, ite_not]

/-- An outcome not taken injects the empty mask. -/
theorem ghrUpdate_eq (g n : Nat) (t : Bool) :
    ghrUpdate g n t = if n = 0 then 0 else g / 2 ||| (if t then 2 ^ (n - 1) else 0) := by
  cases t <;> simp [ghrUpdate, bitMask, pow2_eq, Nat.shiftRight_one]

/-- The injection mask touches bit `n - 1` alone. -/
theorem testBit_ghrUpdate {n : Nat} (hn : 0 < n) (g : Nat) (t : Bool) (j : Nat) :
    (ghrUpdate g n t).testBit j = (g.testBit (j + 1) || (t && decide (n - 1 = j))) := by
  rw [ghrUpdate_eq, if_neg hn.ne', Nat.testBit_or, Nat.testBit_div_two]
  cases t <;> simp [Nat.testBit_two_pow]

/-- Settles O21: the shift and the mask of R131 as division and remainder. -/
theorem pcIndexIsAddressField : Obligations.PcIndexIsAddressField := pcIndex_eq

/-- Settles O25: a history below `2 ^ n` has no bit `n`, so the outcome alone enters at bit `n - 1`. -/
theorem historyShiftsOutcomeIn : Obligations.HistoryShiftsOutcomeIn := by
  intro g n t hg
  refine ⟨?_, fun hn => ⟨?_, fun j hj => ?_⟩, ghrUpdate_lt g n t hg⟩
  · rintro rfl
    rfl
  · have hout : g.testBit n = false := Nat.testBit_lt_two_pow hg
    rw [testBit_ghrUpdate hn, Nat.sub_add_cancel hn, hout]
    simp
  · rw [testBit_ghrUpdate hn]
    simp [hj.symm]

end Sys2Proof.Machine
end

section
namespace Sys2Proof.Machine

/-! ### PU.GSHARE (41_gshare.md R136, R137) -/

/-- An answer with ERR and DATA 0 is PRED at bit 64 (30_encoding.md R95). -/
theorem responseWord_prediction (pred : Bool) :
    responseWord false pred 0 = if pred then 0x10000000000000000#66 else 0#66 := by
  cases pred <;> rfl

/-- The answer of a PU command: the counter read against its threshold (40_counter.md R115). -/
theorem responseWord_ctrTaken (b v : Nat) :
    responseWord false (ctrTaken b v) 0 = if 2 ^ (b - 1) ≤ v then 0x10000000000000000#66 else 0#66 := by
  rw [responseWord_prediction]
  simp only [ctrTaken_iff, threshold_eq]

/-- A legal PU.GSHARE is accepted on both kinds it serves (R130). -/
theorem exec_puGshare_of_ready {s : State} (t : Bool) (a : Address) (hr : s.Ready)
    (hk : s.cfg.kind = .gshare ∨ s.cfg.kind = .bimodal) :
    exec (.puGshare 0 false t a) s = .next (s.puGshare t a) := by
  rw [exec_eq_perform]
  exact State.perform_of_accepted hr ((check_puGshare_eq_none s.cfg 0 false t a).2 ⟨hk, rfl, rfl⟩)

/-- Settles O28: the table after the command is the witness, and what it reads as is the law of a table write. -/
theorem puGshareResult : Obligations.PuGshareResult := by
  intro s t a hr hk p i
  have hi : s.indexT a = i := gshareIndex_eq a s.ghrG s.cfg.m s.cfg.n
  refine ⟨(s.puGshare t a).tabT, ?_, fun j => ?_⟩
  · rw [exec_puGshare_of_ready t a hr hk, State.puGshare_eq, ghrUpdate_eq, responseWord_ctrTaken, hi]
  · exact hi ▸ s.puGshare_readT t a j

end Sys2Proof.Machine
end

section
namespace Sys2Proof.Machine

/-! ### PU.SMITH (42_smith.md R151) -/

/-- A legal PU.SMITH is accepted on its own kind. -/
theorem exec_puSmith_of_ready {s : State} (t : Bool) (a : Address) (hr : s.Ready) (hk : s.cfg.kind = .smith) :
    exec (.puSmith 0 false t a) s = .next (s.puSmith t) := by
  rw [exec_eq_perform]
  exact State.perform_of_accepted hr ((check_puSmith_eq_none s.cfg 0 false t a).2 ⟨hk, rfl, rfl⟩)

/-- Settles O26: the accepted command is its effect, whose answer is S against the threshold. -/
theorem puSmithResult : Obligations.PuSmithResult := by
  intro s t a hr hk
  rw [exec_puSmith_of_ready t a hr hk, State.puSmith_eq, responseWord_ctrTaken]

/-! ### The 1-bit counter (42_smith.md R151, corner cases) -/

/-- S holds a value of its width (10_state.md R32). -/
theorem State.Inv.ctrS_lt {s : State} (h : s.Inv) (hk : s.cfg.kind = .smith) : s.ctrS < pow2 s.cfg.cbS := by
  obtain ⟨-, hok⟩ := h
  simp only [State.elementsOk, hk, Bool.and_eq_true, decide_eq_true_eq] at hok
  obtain ⟨⟨hlt, -⟩, -⟩ := hok
  exact hlt

/-- From either value of a 1-bit counter the outcome is the next value. -/
theorem ctrUpdate_one_bit {v : Nat} (hv : v < pow2 1) (t : Bool) : ctrUpdate 1 v t = t.toNat := by
  have hv2 : v = 0 ∨ v = 1 := Nat.le_one_iff_eq_zero_or_eq_one.1 (Nat.le_of_lt_succ hv)
  rcases hv2 with rfl | rfl <;> cases t <;> rfl

/-- The threshold of a 1-bit counter is 1, so its value is its prediction. -/
theorem ctrTaken_one_bit (t : Bool) : ctrTaken 1 t.toNat = t := by
  cases t <;> rfl

/-- Settles O27: the trained counter is the outcome, and the second command reads it before training. -/
theorem smithOneBitHoldsLastOutcome : Obligations.SmithOneBitHoldsLastOutcome := by
  intro s t a hinv hp
  have hk : s.cfg.kind = .smith := by rw [Config.kind, hp]
  have hb : s.cfg.cbS = 1 := by rw [Config.cbS, hp]
  have hS : (s.puSmith t).ctrS = t.toNat := by
    rw [State.puSmith_ctrS, hb]
    exact ctrUpdate_one_bit (hb ▸ hinv.ctrS_lt hk) t
  refine ⟨s.puSmith t, exec_puSmith_of_ready t a hinv.1 hk, hS, fun t' a' => ?_⟩
  refine ⟨_, exec_puSmith_of_ready t' a' hinv.1 hk, _, State.puSmith_responses _ _, ?_⟩
  rw [predBit_responseWord, State.puSmith_cfg, hb, hS, ctrTaken_one_bit]

end Sys2Proof.Machine
end

section
namespace Sys2Proof

/-- No field of a command is lost in its word (30_encoding.md R81, R88, R89). -/
@[simp] theorem decode_encode (i : Instr) : decode (encode i) = i := by
  cases i <;> simp only [decode, encode, packWord_op, packWord_sel, packWord_r, packWord_t, packWord_a,
    Sel.ofBits_toBits, Instr.op] <;> rfl

end Sys2Proof
end

section
namespace Sys2Proof.Machine

/-! ### Runs of a trace -/

/-- One step of a run of the machine. -/
theorem run_succ_of_step {s s' : State} (h : step s = .next s') (k : Nat) :
    Host.Core.run Sys2Proof.core (k + 1) s = Host.Core.run Sys2Proof.core k s' := by
  have hcore : Sys2Proof.core.step s = .next s' := h
  simp only [Host.Core.run, hcore]

/-- Lockstep simulation, the induction on the number of steps done once: a relation that every pair of steps
keeps, neither machine stopping, holds after every number of steps. -/
theorem run_lockstep {R : State → State → Prop}
    (hstep : ∀ s t, R s t → ∃ s' t', step s = .next s' ∧ step t = .next t' ∧ R s' t') (k : Nat) :
    ∀ s t, R s t → ∃ s' t', Host.Core.run Sys2Proof.core k s = .next s' ∧
      Host.Core.run Sys2Proof.core k t = .next t' ∧ R s' t' := by
  induction k with
  | zero => exact fun s t h => ⟨s, t, rfl, rfl, h⟩
  | succ k ih =>
    intro s t h
    obtain ⟨s', t', hs, ht, h'⟩ := hstep s t h
    rw [run_succ_of_step hs, run_succ_of_step ht]
    exact ih s' t' h'

/-- The step that takes a trace record runs the PU command of the instance's kind (30_encoding.md R97, R99). -/
theorem step_record {s : State} {r : Record} {rest : List Request}
    (h : s.requests = .command (r.word s.cfg) :: rest) :
    step s = exec (branchCommand s.cfg r.address r.taken) { s with requests := rest } := by
  rw [step_command h, Record.word, decode_encode]

section
variable {s : State} {r : Record} {rest : List Request} (hr : s.Ready)
  (hq : s.requests = .command (r.word s.cfg) :: rest)
include hr hq

theorem step_record_smith (hk : s.cfg.kind = .smith) :
    step s = .next (State.puSmith { s with requests := rest } r.taken) := by
  have hcmd : branchCommand s.cfg r.address r.taken = .puSmith 0 false r.taken r.address := by
    simp only [branchCommand, hk]
  rw [step_record hq, hcmd]
  exact exec_puSmith_of_ready _ _ hr hk

theorem step_record_gshare (hk : s.cfg.kind = .gshare) :
    step s = .next (State.puGshare { s with requests := rest } r.taken r.address) := by
  have hcmd : branchCommand s.cfg r.address r.taken = .puGshare 0 false r.taken r.address := by
    simp only [branchCommand, hk]
  rw [step_record hq, hcmd]
  exact exec_puGshare_of_ready _ _ hr (.inl hk)

end

/-! ### The Smith predictor as a one-entry table (42_smith.md R153) -/

/-- The GSHARE configuration (M, N, CB_T) = (0, 0, CB_S) under the same implementation bounds. -/
def oneEntryTable (c : Config) : Config := { c with params := .gshare 0 0 c.cbS }

/-- Both kinds check the one counter width; the index and history widths of 0 pass every bound (R203). -/
theorem legal_oneEntryTable {c : Config} (hk : c.kind = .smith) (hl : c.legal = true) :
    (oneEntryTable c).legal = true := by
  obtain ⟨params, maxC, maxI⟩ := c
  cases params with
  | smith b => exact hl
  | bimodal | gshare | hybrid => cases hk

/-- With no index bit and no history bit every address selects entry 0. -/
theorem indexT_eq_zero {s : State} (hm : s.cfg.m = 0) (hn : s.cfg.n = 0) (a : Address) : s.indexT a = 0 := by
  rw [State.indexT, gshareIndex_eq, if_pos hn, hm, pow_zero, Nat.mod_one]

/-- What the two instances of R153 have in common at each step: the records still to come, the counter and the
responses. -/
structure SmithTwin (ss sg : State) : Prop where
  ready : ss.Ready
  kind : ss.cfg.kind = .smith
  cfg_twin : sg.cfg = oneEntryTable ss.cfg
  resetDone_twin : sg.resetDone = true
  pending : ∃ rs : List Record,
    ss.requests = (ss.presentTrace rs).requests ∧ sg.requests = (sg.presentTrace rs).requests
  counter : ss.ctrS = sg.readT 0
  responses : ss.responses = sg.responses

/-- At reset S and every entry of T hold the same threshold (10_state.md R44, R45). -/
theorem smithTwin_presentTrace_reset {c : Config} (hk : c.kind = .smith) (hl : c.legal = true)
    (rs : List Record) :
    SmithTwin ((State.resetOf c).presentTrace rs) ((State.resetOf (oneEntryTable c)).presentTrace rs) where
  ready := ⟨hl, rfl⟩
  kind := hk
  cfg_twin := rfl
  resetDone_twin := rfl
  pending := ⟨rs, rfl, rfl⟩
  counter := by
    change resetCtrS c = threshold c.cbS
    simp only [resetCtrS, hk]
  responses := rfl

section
variable {ss sg : State} (h : SmithTwin ss sg)
include h

theorem SmithTwin.ready_twin : sg.Ready :=
  ⟨h.cfg_twin ▸ legal_oneEntryTable h.kind h.ready.1, h.resetDone_twin⟩

/-- PU.SMITH on S and PU.GSHARE on T[0] train the same value of the same width and answer alike. -/
theorem SmithTwin.puSmith_puGshare {rs : List Record} (t : Bool) (a : Address) :
    SmithTwin (State.puSmith { ss with requests := (ss.presentTrace rs).requests } t)
      (State.puGshare { sg with requests := (sg.presentTrace rs).requests } t a) := by
  have hwidth : sg.cfg.cbT = ss.cfg.cbS := by rw [h.cfg_twin]; rfl
  have hindex : State.indexT { sg with requests := (sg.presentTrace rs).requests } a = 0 :=
    indexT_eq_zero (by rw [h.cfg_twin]; rfl) (by rw [h.cfg_twin]; rfl) a
  have hread : State.readT { sg with requests := (sg.presentTrace rs).requests } 0 = ss.ctrS := h.counter.symm
  refine ⟨h.ready, h.kind, h.cfg_twin, h.resetDone_twin, ⟨rs, rfl, rfl⟩, ?_, ?_⟩
  · rw [State.puSmith_ctrS, State.puGshare_readT, hindex, if_pos rfl, hread, hwidth]
  · rw [State.puSmith_responses, State.puGshare_responses, hindex, hread, hwidth, h.responses]

/-- A pair of steps keeps the relation: both idle at the end of the trace, or both take the same record. -/
theorem SmithTwin.step : ∃ ss' sg', step ss = .next ss' ∧ step sg = .next sg' ∧ SmithTwin ss' sg' := by
  obtain ⟨rs, hs, hg⟩ := h.pending
  cases rs with
  | nil => exact ⟨ss, sg, step_idle hs, step_idle hg, h⟩
  | cons r rs =>
    have hkg : sg.cfg.kind = .gshare := by rw [h.cfg_twin]; rfl
    exact ⟨_, _, step_record_smith h.ready hs h.kind, step_record_gshare h.ready_twin hg hkg,
      h.puSmith_puGshare r.taken r.address⟩

end

/-- Settles O57: the reset states are twins, and every pair of steps keeps them so. -/
theorem smithIsOneEntryTable : Obligations.SmithIsOneEntryTable := by
  intro b maxC maxI rs k smith gshare hl
  have hreset := smithTwin_presentTrace_reset (c := smith) rfl hl rs
  obtain ⟨ss, sg, hs, hg, htwin⟩ := run_lockstep (fun _ _ => SmithTwin.step) k _ _ hreset
  exact ⟨ss, sg, hs, hg, htwin.responses, htwin.counter⟩

end Sys2Proof.Machine
end

section
namespace Sys2Proof.Machine

/-! ### PU.HYBRID (43_hybrid.md R162 to R167) -/

/-- The chooser's word-aligned PC bits are those of the table index at width K (R162). -/
theorem State.indexC_eq (s : State) (a : Address) : s.indexC a = a.toNat / 4 % 2 ^ s.cfg.k :=
  pcIndex_eq a s.cfg.k

/-- At history width 0 the PC bits are the whole index (R161, R164 step 2). -/
theorem State.indexTB_eq (s : State) (a : Address) : s.indexTB a = a.toNat / 4 % 2 ^ s.cfg.m2 := by
  rw [State.indexTB, gshareIndex_eq, if_pos rfl]

theorem chooserUpdate_of_agree {pg pb : Bool} (h : pg = pb) (b c : Nat) (t : Bool) :
    chooserUpdate b c pg pb t = c :=
  if_pos h

theorem chooserUpdate_of_disagree {pg pb : Bool} (h : pg ≠ pb) (b c : Nat) (t : Bool) :
    chooserUpdate b c pg pb t = if pg = t then ctrInc b c else ctrDec c :=
  if_neg h

section
variable (s : State) (t : Bool) (a : Address)

@[simp] theorem State.puHybrid_ctrS : (s.puHybrid t a).ctrS = s.ctrS := by rw [State.puHybrid_eq]

@[simp] theorem State.puHybrid_tabT : (s.puHybrid t a).tabT = s.tabT := by rw [State.puHybrid_eq]

@[simp] theorem State.puHybrid_ghrG : (s.puHybrid t a).ghrG = s.ghrG := by rw [State.puHybrid_eq]

@[simp] theorem State.puHybrid_ghrGB : (s.puHybrid t a).ghrGB = s.ghrGB := by rw [State.puHybrid_eq]

/-- With Gshare selected, Bimodal's table is the unselected one (R166). -/
theorem State.puHybrid_tabTB_of_useG (h : s.useG a = true) : (s.puHybrid t a).tabTB = s.tabTB := by
  rw [State.puHybrid_eq]
  exact if_pos h

/-- With Bimodal selected, Gshare's table is the unselected one (R166). -/
theorem State.puHybrid_tabTG_of_not_useG (h : s.useG a = false) : (s.puHybrid t a).tabTG = s.tabTG := by
  rw [State.puHybrid_eq]
  exact if_neg (Bool.eq_false_iff.1 h)

/-- Chooser gating (R167): C[ci] written back unchanged is no change to any read. -/
theorem State.puHybrid_readC_of_agree (h : s.predG a = s.predB a) (j : Nat) :
    (s.puHybrid t a).readC j = s.readC j := by
  rw [State.puHybrid_readC, chooserUpdate_of_agree h, ite_eq_right_iff]
  rintro rfl
  rfl

/-- R164 step 6: one entry moves, on disagreement alone, up where Gshare was right and down otherwise. -/
theorem State.puHybrid_readC_gated (j : Nat) : (s.puHybrid t a).readC j =
    if j = s.indexC a ∧ s.predG a ≠ s.predB a then
      (if s.predG a = t then ctrInc s.cfg.cbC (s.readC (s.indexC a)) else ctrDec (s.readC (s.indexC a)))
    else s.readC j := by
  by_cases hagree : s.predG a = s.predB a
  · rw [if_neg fun h => h.2 hagree]
    exact s.puHybrid_readC_of_agree t a hagree j
  · rw [State.puHybrid_readC, chooserUpdate_of_disagree hagree]
    simp only [Ne, hagree, not_false_eq_true, and_true]

end

/-- A legal PU.HYBRID is accepted on its own kind. -/
theorem exec_puHybrid_of_ready {s : State} (t : Bool) (a : Address) (hr : s.Ready)
    (hk : s.cfg.kind = .hybrid) :
    exec (.puHybrid 0 false t a) s = .next (s.puHybrid t a) := by
  rw [exec_eq_perform]
  exact State.perform_of_accepted hr ((check_puHybrid_eq_none s.cfg 0 false t a).2 ⟨hk, rfl, rfl⟩)

/-- Settles O29: the tables after the command are the witnesses. The statement's indices, predictions and
selection are the model's on the state before the command, and its clauses are the laws of the reads after it. -/
theorem puHybridResult : Obligations.PuHybridResult := by
  intro s t a hr hk p ci ig ib pg pb useG
  have hci : s.indexC a = ci := s.indexC_eq a
  have hig : s.indexTG a = ig := gshareIndex_eq a s.ghrGG s.cfg.m1 s.cfg.n
  have hib : s.indexTB a = ib := s.indexTB_eq a
  have hpg : s.predG a = pg := by rw [State.predG, hig]; rfl
  have hpb : s.predB a = pb := by rw [State.predB, hib]; rfl
  have huse : s.useG a = useG := by rw [State.useG, hci]; rfl
  refine ⟨(s.puHybrid t a).tabTG, (s.puHybrid t a).tabTB, (s.puHybrid t a).tabC, ?_, fun j => ?_, fun j => ?_,
    fun j => ?_⟩
  · rw [exec_puHybrid_of_ready t a hr hk, State.puHybrid_eq, ghrUpdate_eq, responseWord_prediction, hpg, hpb, huse]
  · rw [← hig, ← huse, ← State.puHybrid_readTG, State.readTG, State.puHybrid_cfg]
    rfl
  · rw [← hib, ← huse, ← State.puHybrid_readTB, State.readTB, State.puHybrid_cfg]
    rfl
  · rw [← hci, ← hpg, ← hpb, ← State.puHybrid_readC_gated, State.readC, State.puHybrid_cfg]
    rfl

/-- Settles O30: the next state is the effect of the accepted command, and each clause is a law of its reads. -/
theorem puHybridFrame : Obligations.PuHybridFrame := by
  intro s s' t a hr hk hexec
  rw [exec_puHybrid_of_ready t a hr hk] at hexec
  obtain rfl := Host.Outcome.next.inj hexec
  refine ⟨s.puHybrid_ghrGG t a, fun huse => ⟨s.puHybrid_tabTB_of_useG t a huse, ?_, fun j hj => ?_⟩,
    fun huse => ⟨s.puHybrid_tabTG_of_not_useG t a huse, ?_, fun j hj => ?_⟩,
    s.puHybrid_readC_of_agree t a, fun j hj => ?_, s.puHybrid_ctrS t a, s.puHybrid_tabT t a,
    s.puHybrid_ghrG t a, s.puHybrid_ghrGB t a, s.puHybrid_cfg t a, s.puHybrid_resetDone t a,
    s.puHybrid_requests t a⟩
  · rw [State.puHybrid_readTG, if_pos ⟨huse, rfl⟩]
  · rw [State.puHybrid_readTG, if_neg fun h => hj h.2]
  · rw [State.puHybrid_readTB, if_pos ⟨huse, rfl⟩]
  · rw [State.puHybrid_readTB, if_neg fun h => hj h.2]
  · rw [State.puHybrid_readC, if_neg hj]

end Sys2Proof.Machine
end

section
namespace Sys2Proof.Machine

/-! ### Accepted and rejected commands as response words (30_encoding.md R95, 60_exceptions.md R202) -/

/-- The code stands in DATA, with ERR alone set above it. -/
theorem errorWord_eq (e : CmdError) : errorWord e = 0b10#2 ++ BitVec.ofNat 64 (errorCode e) := rfl

/-- A value that is read out stands in DATA, with ERR and PRED 0. -/
theorem responseWord_value (v : Nat) : responseWord false false (zext64 v) = 0#2 ++ BitVec.ofNat 64 v := rfl

/-- The error response is the whole effect of a rejected command (R202). -/
theorem exec_of_rejected {s : State} {i : Instr} {e : CmdError} (hr : s.Ready) (hc : check s.cfg i = some e) :
    exec i s = .next { s with responses := s.responses ++ [0b10#2 ++ BitVec.ofNat 64 (errorCode e)] } := by
  rw [exec_eq_perform, State.perform_of_rejected hr hc, errorWord_eq, State.emit]

/-! ### NOP (44_interface_ops.md R180) -/

/-- The one legal NOP is accepted on every kind. -/
theorem exec_nop_of_ready {s : State} (hr : s.Ready) :
    exec (.nop 0 false false 0) s = .next (s.emit (responseWord false false 0)) := by
  rw [exec_eq_perform]
  exact State.perform_of_accepted hr ((check_nop_eq_none s.cfg 0 false false 0).2 ⟨rfl, rfl, rfl, rfl⟩)

/-- Settles O33: the accepted NOP emits the zero word, and any non-zero field fails its one check. -/
theorem nopResult : Obligations.NopResult := by
  intro s hr
  refine ⟨?_, fun sel r t a hnz => exec_of_rejected hr (check_nop_of_nonzero s.cfg hnz)⟩
  rw [exec_nop_of_ready hr, responseWord_prediction, State.emit]
  rfl

end Sys2Proof.Machine
end

section
namespace Sys2Proof

/-! ### The elements a kind has (30_encoding.md R89) -/

section
variable {k : Kind}

theorem Sel.present_smithCtr_iff : Sel.smithCtr.present k = true ↔ k = .smith := beq_iff_eq

theorem Sel.present_gshareTable_iff : Sel.gshareTable.present k = true ↔ k = .gshare ∨ k = .bimodal := by
  simp [Sel.present]

theorem Sel.present_chooser_iff : Sel.chooser.present k = true ↔ k = .hybrid := beq_iff_eq

theorem Sel.present_hybGshareTable_iff : Sel.hybGshareTable.present k = true ↔ k = .hybrid := beq_iff_eq

theorem Sel.present_hybBimodalTable_iff : Sel.hybBimodalTable.present k = true ↔ k = .hybrid := beq_iff_eq

theorem Sel.present_ghr_iff : Sel.ghr.present k = true ↔ k ≠ .smith := by
  cases k <;> decide

end

end Sys2Proof
end

section
namespace Sys2Proof.Machine

/-! ### RD (44_interface_ops.md R182) -/

section
variable {s : State} {i : Nat}

theorem State.readElement_smithCtr (hk : s.cfg.kind = .smith) : s.readElement .smithCtr i = some s.ctrS := by
  simp only [State.readElement, hk]

theorem State.readElement_gshareTable (hk : s.cfg.kind = .gshare ∨ s.cfg.kind = .bimodal) :
    s.readElement .gshareTable i = some (s.readT i) := by
  rcases hk with hk | hk <;> simp only [State.readElement, hk]

theorem State.readElement_chooser (hk : s.cfg.kind = .hybrid) : s.readElement .chooser i = some (s.readC i) := by
  simp only [State.readElement, hk]

theorem State.readElement_hybGshareTable (hk : s.cfg.kind = .hybrid) :
    s.readElement .hybGshareTable i = some (s.readTG i) := by
  simp only [State.readElement, hk]

theorem State.readElement_hybBimodalTable (hk : s.cfg.kind = .hybrid) :
    s.readElement .hybBimodalTable i = some (s.readTB i) := by
  simp only [State.readElement, hk]

theorem State.readElement_ghr_of_table (hk : s.cfg.kind = .gshare ∨ s.cfg.kind = .bimodal) :
    s.readElement .ghr i = some s.ghrG := by
  rcases hk with hk | hk <;> simp only [State.readElement, hk]

theorem State.readElement_ghr_of_hybrid (hk : s.cfg.kind = .hybrid) : s.readElement .ghr i = some s.ghrGG := by
  simp only [State.readElement, hk]

/-- RD finds an element exactly where the "present in kind" column of R89 has one. -/
theorem State.isSome_readElement (s : State) (x : Sel) (i : Nat) :
    (s.readElement x i).isSome = x.present s.cfg.kind := by
  unfold State.readElement
  cases x <;> cases s.cfg.kind <;> rfl

end

section
variable {s : State} {x : Sel} {a : Address} (hr : s.Ready)
include hr

/-- An RD of an element the kind has, at a legal index, answers its value. -/
theorem exec_rd_of_readElement {v : Nat} (hv : s.readElement x a.toNat = some v) (ha : a.toNat < x.size s.cfg) :
    exec (.rd x false false a) s = .next { s with responses := s.responses ++ [0#2 ++ BitVec.ofNat 64 v] } := by
  have hp : x.present s.cfg.kind = true := by rw [← s.isSome_readElement x a.toNat, hv, Option.isSome_some]
  have hcheck : check s.cfg (.rd x false false a) = none :=
    (check_rd_eq_none s.cfg x false false a).2 ⟨rfl, rfl, Sel.isReserved_of_present hp, hp, ha⟩
  rw [exec_eq_perform, State.perform_of_accepted hr hcheck]
  simp only [effectOf, State.readOut, hv, State.respond, State.emit, responseWord_value]

/-- Code 5, E_SEL_ABSENT. -/
theorem exec_rd_of_absent (hx : x.isReserved = false) (hp : ¬ x.present s.cfg.kind = true) :
    exec (.rd x false false a) s = .next { s with responses := s.responses ++ [0b10#2 ++ BitVec.ofNat 64 5] } :=
  exec_of_rejected hr (check_rd_of_absent s.cfg rfl rfl hx (Bool.eq_false_iff.2 hp))

/-- Code 6, E_INDEX_RANGE. -/
theorem exec_rd_of_size_le (hp : x.present s.cfg.kind = true) (ha : x.size s.cfg ≤ a.toNat) :
    exec (.rd x false false a) s = .next { s with responses := s.responses ++ [0b10#2 ++ BitVec.ofNat 64 6] } :=
  exec_of_rejected hr (check_rd_of_size_le s.cfg rfl rfl hp ha)

end

/-- Index 0 is the one index below a size of 1 (R89, S and the history registers). -/
theorem toNat_lt_one {a : Address} (h : a = 0) : a.toNat < 1 := Nat.lt_one_iff.2 (toNat_eq_zero_iff.2 h)

theorem one_le_toNat {a : Address} (h : a ≠ 0) : 1 ≤ a.toNat :=
  Nat.one_le_iff_ne_zero.2 (mt toNat_eq_zero_iff.1 h)

/-- Settles O34: each clause is a read of an element the kind has, or the first check of R101 that fails. -/
theorem rdResult : Obligations.RdResult := by
  intro s a hr answers rejects
  refine ⟨?smithCtr, ?gshareTable, ?chooser, ?hybGshareTable, ?hybBimodalTable, ?ghrG, ?ghrGG, ?rsvdField,
    ?reserved110, ?reserved111, ?noSmithCtr, ?noGshareTable, ?noHybrid, ?noGhr, ?smithCtrRange, ?ghrRange,
    ?gshareTableRange, ?hybridRange⟩
  case smithCtr => exact fun hk ha => exec_rd_of_readElement hr (State.readElement_smithCtr hk) (toNat_lt_one ha)
  case gshareTable => exact fun hk ha => exec_rd_of_readElement hr (State.readElement_gshareTable hk) ha
  case chooser => exact fun hk ha => exec_rd_of_readElement hr (State.readElement_chooser hk) ha
  case hybGshareTable => exact fun hk ha => exec_rd_of_readElement hr (State.readElement_hybGshareTable hk) ha
  case hybBimodalTable => exact fun hk ha => exec_rd_of_readElement hr (State.readElement_hybBimodalTable hk) ha
  case ghrG => exact fun hk ha => exec_rd_of_readElement hr (State.readElement_ghr_of_table hk) (toNat_lt_one ha)
  case ghrGG => exact fun hk ha => exec_rd_of_readElement hr (State.readElement_ghr_of_hybrid hk) (toNat_lt_one ha)
  case rsvdField => exact fun x r t hnz => exec_of_rejected hr (check_rd_of_nonzero s.cfg hnz)
  case reserved110 => exact exec_of_rejected hr (check_rd_of_isReserved s.cfg rfl rfl rfl)
  case reserved111 => exact exec_of_rejected hr (check_rd_of_isReserved s.cfg rfl rfl rfl)
  case noSmithCtr => exact fun hk => exec_rd_of_absent hr rfl (mt Sel.present_smithCtr_iff.1 hk)
  case noGshareTable =>
    exact fun hg hb => exec_rd_of_absent hr rfl (mt Sel.present_gshareTable_iff.1 (not_or.2 ⟨hg, hb⟩))
  case noHybrid =>
    exact fun hk => ⟨exec_rd_of_absent hr rfl (mt Sel.present_chooser_iff.1 hk),
      exec_rd_of_absent hr rfl (mt Sel.present_hybGshareTable_iff.1 hk),
      exec_rd_of_absent hr rfl (mt Sel.present_hybBimodalTable_iff.1 hk)⟩
  case noGhr => exact fun hk => exec_rd_of_absent hr rfl fun hp => Sel.present_ghr_iff.1 hp hk
  case smithCtrRange =>
    exact fun hk ha => exec_rd_of_size_le hr (Sel.present_smithCtr_iff.2 hk) (one_le_toNat ha)
  case ghrRange => exact fun hk ha => exec_rd_of_size_le hr (Sel.present_ghr_iff.2 hk) (one_le_toNat ha)
  case gshareTableRange => exact fun hk ha => exec_rd_of_size_le hr (Sel.present_gshareTable_iff.2 hk) ha
  case hybridRange =>
    exact fun hk => ⟨exec_rd_of_size_le hr (Sel.present_chooser_iff.2 hk),
      exec_rd_of_size_le hr (Sel.present_hybGshareTable_iff.2 hk),
      exec_rd_of_size_le hr (Sel.present_hybBimodalTable_iff.2 hk)⟩

end Sys2Proof.Machine
end

section
namespace Sys2Proof.Machine

/-! ### One response a command (44_interface_ops.md R184) -/

/-- What R184 says of the step from `t` to `t'` that takes the command word `w`, with `rest` behind it, and
answers `r`. -/
structure Answered (w : CommandWord) (rest : List Request) (t t' : State) (r : ResponseWord) : Prop where
  step_eq : step t = .next t'
  ready : t'.Ready
  requests_eq : t'.requests = rest
  responses_eq : t'.responses = t.responses ++ [r]
  rejected : ∀ e, decodeFor t.cfg w = .error e →
    r = 0b10#2 ++ BitVec.ofNat 64 (errorCode e) ∧ sameElements t t'

theorem effectOf_ready {s : State} (hr : s.Ready) (i : Instr) : (effectOf i s).Ready := by
  obtain ⟨hcfg, hreset, -⟩ := effectOf_frame i s
  rw [State.Ready, hcfg, hreset]
  exact hr

/-- A ready instance answers the oldest command presented, whether its check accepts or rejects it. -/
theorem exists_answered {t : State} {w : CommandWord} {rest : List Request} (hr : t.Ready)
    (hq : t.requests = .command w :: rest) : ∃ t' r, Answered w rest t t' r := by
  have hexec := exec_of_ready (s := { t with requests := rest }) hr (decode w)
  rw [← step_command hq] at hexec
  cases hc : check t.cfg (decode w) with
  | some e =>
    simp only [hc] at hexec
    refine ⟨_, errorWord e, hexec, hr, rfl, rfl, fun e' he => ?_⟩
    rw [decodeFor_of_check_some hc] at he
    obtain rfl := Except.error.inj he
    exact ⟨errorWord_eq e, rfl, rfl, rfl, rfl, rfl, rfl, rfl, rfl, rfl, rfl⟩
  | none =>
    simp only [hc] at hexec
    obtain ⟨-, -, hreq⟩ := effectOf_frame (decode w) { t with requests := rest }
    obtain ⟨r, hresp⟩ := effectOf_responses (s := { t with requests := rest }) hc
    refine ⟨_, r, hexec, effectOf_ready (s := { t with requests := rest }) hr _, hreq, hresp, fun e he => ?_⟩
    rw [decodeFor_of_check_none hc] at he
    cases he

/-- Settles O52, by induction on the words presented: the first is answered by one step, the others from the
state after it. -/
theorem oneResponsePerCommand : Obligations.OneResponsePerCommand := by
  intro ws
  induction ws with
  | nil => exact fun s _ hq => ⟨s, [], rfl, rfl, by simp, hq, fun k hk => absurd hk (Nat.not_lt_zero k)⟩
  | cons w ws ih =>
    intro s hr hq
    obtain ⟨s₁, r, h⟩ := exists_answered hr hq
    obtain ⟨s', rs, hrun, hlen, hresp, hreq, hsteps⟩ := ih s₁ h.ready h.requests_eq
    refine ⟨s', r :: rs, ?_, by simp [hlen], by simp [hresp, h.responses_eq], hreq, fun k hk => ?_⟩
    · rw [List.length_cons, run_succ_of_step h.step_eq, hrun]
    · cases k with
      | zero => exact ⟨s, s₁, w, r, rfl, rfl, rfl, h.step_eq, hq, h.responses_eq, h.rejected⟩
      | succ k =>
        obtain ⟨t, t', w', r', hrunk, hanswer⟩ := hsteps k (Nat.lt_of_succ_lt_succ hk)
        exact ⟨t, t', w', r', (run_succ_of_step h.step_eq k).trans hrunk, hanswer⟩

end Sys2Proof.Machine
end

section
namespace Sys2Proof.Machine

/-! ### Rejected commands (60_exceptions.md R202) -/

/-- The codes of R201 are 1 to 6. -/
theorem errorCode_bounds (e : CmdError) : 1 ≤ errorCode e ∧ errorCode e ≤ 6 := by
  cases e <;> decide

/-- Every code is far below 2^64, so zero-extension to DATA loses nothing. -/
theorem dataField_errorWord_toNat (e : CmdError) : (dataField (errorWord e)).toNat = errorCode e := by
  obtain ⟨-, hle⟩ := errorCode_bounds e
  rw [errorWord, dataField_responseWord, zext64, BitVec.toNat_ofNat, Nat.mod_eq_of_lt (by omega)]

/-- Settles O39: the one response is the error's word, whose fields are read back. -/
theorem rejectionChangesNothing : Obligations.RejectionChangesNothing := by
  intro s i e hr hc
  exact ⟨errorWord e, exec_of_rejected hr hc, errBit_responseWord _ _ _, predBit_responseWord _ _ _,
    dataField_errorWord_toNat e, errorCode_bounds e⟩

end Sys2Proof.Machine
end

section
namespace Sys2Proof

/-! ### Which configurations are legal (60_exceptions.md R203) -/

section
variable (c : Config)

@[simp] theorem Config.counterWidthOk_iff (b : Nat) : c.counterWidthOk b = true ↔ 1 ≤ b ∧ b ≤ c.maxCounterBits := by
  simp [Config.counterWidthOk]

@[simp] theorem Config.indexWidthOk_iff (w : Nat) : c.indexWidthOk w = true ↔ w ≤ c.maxIndexBits :=
  decide_eq_true_iff

/-- The ranges of the two bounds of the implementation. -/
def Config.BoundsOk : Prop := 1 ≤ c.maxCounterBits ∧ c.maxCounterBits ≤ 64 ∧ c.maxIndexBits ≤ 62

variable {c}

theorem Config.legal_smith_iff {cbS : Nat} (h : c.params = .smith cbS) :
    c.legal = true ↔ c.BoundsOk ∧ 1 ≤ cbS ∧ cbS ≤ c.maxCounterBits := by
  simp [Config.legal, h, Config.BoundsOk, and_assoc]

theorem Config.legal_bimodal_iff {m cbT : Nat} (h : c.params = .bimodal m cbT) :
    c.legal = true ↔ c.BoundsOk ∧ m ≤ c.maxIndexBits ∧ 1 ≤ cbT ∧ cbT ≤ c.maxCounterBits := by
  simp [Config.legal, h, Config.BoundsOk, and_assoc]

theorem Config.legal_gshare_iff {m n cbT : Nat} (h : c.params = .gshare m n cbT) :
    c.legal = true ↔ c.BoundsOk ∧ m ≤ c.maxIndexBits ∧ n ≤ m ∧ 1 ≤ cbT ∧ cbT ≤ c.maxCounterBits := by
  simp [Config.legal, h, Config.BoundsOk, and_assoc]

theorem Config.legal_hybrid_iff {k n m1 m2 cbT cbC ci : Nat} (h : c.params = .hybrid k n m1 m2 cbT cbC ci) :
    c.legal = true ↔ c.BoundsOk ∧ k ≤ c.maxIndexBits ∧ m1 ≤ c.maxIndexBits ∧ m2 ≤ c.maxIndexBits ∧ n ≤ m1 ∧
      1 ≤ cbT ∧ cbT ≤ c.maxCounterBits ∧ 1 ≤ cbC ∧ cbC ≤ c.maxCounterBits ∧ ci ≤ 2 ^ cbC - 1 := by
  simp [Config.legal, h, Config.BoundsOk, ← Machine.ceiling_eq, and_assoc]

end

end Sys2Proof
end

section
namespace Sys2Proof.Machine

/-! ### An illegal configuration has no instance (60_exceptions.md R203) -/

section
variable {s : State}

/-- Nothing runs on an instance that does not exist, whether or not it was reset. -/
theorem State.whenReady_of_illegal (h : s.cfg.legal = false) (f : State → State) :
    s.whenReady f = .refused .illegalConfiguration := if_pos h

theorem exec_of_illegal (h : s.cfg.legal = false) (i : Instr) : exec i s = .refused .illegalConfiguration := by
  rw [exec_eq_perform]
  exact State.whenReady_of_illegal h _

theorem State.applyReset_of_illegal (h : s.cfg.legal = false) :
    s.applyReset = .refused .illegalConfiguration := if_pos h

end

/-- Settles O46: the check is R203's conjunction for the kind at hand, the clauses of the other kinds being void;
and `exec` and the reset both look at it first. -/
theorem illegalConfigurationRefused : Obligations.IllegalConfigurationRefused := by
  refine ⟨fun c => ?_, fun s hl => ⟨exec_of_illegal hl, fun rest hq => ?_⟩⟩
  · cases hp : c.params with
    | smith cbS => simp [Config.legal_smith_iff hp, Config.BoundsOk]
    | bimodal m cbT => simp [Config.legal_bimodal_iff hp, Config.BoundsOk]
    | gshare m n cbT => simp [Config.legal_gshare_iff hp, Config.BoundsOk]
    | hybrid k n m1 m2 cbT cbC ci =>
      rw [Config.legal_hybrid_iff hp]
      constructor
      · rintro ⟨hbounds, h⟩
        refine ⟨hbounds, nofun, nofun, nofun, ?_⟩
        rintro _ _ _ _ _ _ _ ⟨⟩
        exact h
      · rintro ⟨hbounds, -, -, -, h⟩
        exact ⟨hbounds, h _ _ _ _ _ _ _ rfl⟩
  · rw [step_reset hq]
    exact State.applyReset_of_illegal (s := { s with requests := rest }) hl

end Sys2Proof.Machine
end

section
namespace Sys2Proof.Machine

/-! ### What reset sets every element to (70_reset_and_hazards.md R230) -/

theorem State.applyReset_of_legal {s : State} (h : s.cfg.legal = true) :
    s.applyReset = .next { State.resetOf s.cfg with requests := s.requests, responses := s.responses } :=
  if_neg (by simp [h])

theorem step_reset_of_legal {s : State} {rest : List Request} (hl : s.cfg.legal = true)
    (hq : s.requests = .reset :: rest) :
    step s = .next { State.resetOf s.cfg with requests := rest, responses := s.responses } :=
  (step_reset hq).trans (State.applyReset_of_legal (s := { s with requests := rest }) hl)

theorem State.resetOf_ctrS_of_smith {c : Config} (hk : c.kind = .smith) :
    (State.resetOf c).ctrS = 2 ^ (c.cbS - 1) := by
  simp only [State.resetOf_ctrS, resetCtrS, hk, threshold_eq]

section
variable (c : Config) (i : Nat)

@[simp] theorem State.resetOf_readT : (State.resetOf c).readT i = 2 ^ (c.cbT - 1) := by
  rw [State.readT, State.resetOf_tabT, Table.read_nil, fillT, threshold_eq, State.resetOf_cfg]

@[simp] theorem State.resetOf_readTG : (State.resetOf c).readTG i = 2 ^ (c.cbT - 1) := by
  rw [State.readTG, State.resetOf_tabTG, Table.read_nil, fillT, threshold_eq, State.resetOf_cfg]

@[simp] theorem State.resetOf_readTB : (State.resetOf c).readTB i = 2 ^ (c.cbT - 1) := by
  rw [State.readTB, State.resetOf_tabTB, Table.read_nil, fillT, threshold_eq, State.resetOf_cfg]

@[simp] theorem State.resetOf_readC : (State.resetOf c).readC i = c.ci := by
  rw [State.readC, State.resetOf_tabC, Table.read_nil, fillC, State.resetOf_cfg]

end

/-- Settles O47: the step is the reset, and the state it answers differs from the one right after reset in its
channels alone, which no read looks at. -/
theorem resetSetsEveryElement : Obligations.ResetSetsEveryElement := by
  intro s rest hl hq
  refine ⟨_, step_reset_of_legal hl hq, rfl, rfl, rfl, State.resetOf_ctrS_of_smith,
    fun _ => ?table, fun _ => ?hybrid⟩
  case table => exact ⟨State.resetOf_readT s.cfg, rfl⟩
  case hybrid =>
    exact ⟨State.resetOf_readC s.cfg, State.resetOf_readTG s.cfg, State.resetOf_readTB s.cfg, rfl⟩

end Sys2Proof.Machine
end

section
namespace Sys2Proof.Machine

/-! ### Words and commands are one to one (30_encoding.md R81, R88, R89) -/

section
variable {w : CommandWord}

theorem decode_of_op_five (h : w.op.toNat = 5) : decode w = .reservedOp101 w.sel w.r w.t w.a := by
  simp only [decode, h]

theorem decode_of_op_six (h : w.op.toNat = 6) : decode w = .reservedOp110 w.sel w.r w.t w.a := by
  simp only [decode, h]

theorem decode_of_op_seven (h : w.op.toNat = 7) : decode w = .reservedOp111 w.sel w.r w.t w.a := by
  simp only [decode, h]

end

/-- The row that OP names has the OP value it was named by (R82, R88). -/
theorem op_decode (w : CommandWord) : (decode w).op = w.op := by
  unfold decode
  generalize w.op = b
  fin_cases b <;> rfl

/-- The word of a row is its OP value over the word's other four fields. -/
theorem encode_decode (w : CommandWord) : encode (decode w) = w := by
  have hrow : encode (decode w) = packWord (decode w).op w.sel w.r w.t w.a := by
    unfold decode
    split <;> simp only [encode, Sel.toBits_ofBits]
  rw [hrow, op_decode, packWord_fields]

/-- Settles O1: each row's word gives back every field. -/
theorem decodeOfEncode : Obligations.DecodeOfEncode := decode_encode

/-- Settles O2: a word is the encoding of what it decodes to, so `decode` has a left inverse. -/
theorem encodeOfDecode : Obligations.EncodeOfDecode :=
  ⟨encode_decode, fun _ _ h => Function.LeftInverse.injective encode_decode h⟩

theorem bitVec_eq_ofNat {n k : Nat} {x : BitVec n} (h : x.toNat = k) : x = BitVec.ofNat n k := by
  rw [← h, BitVec.ofNat_toNat, BitVec.setWidth_eq]

theorem bool_eq_beq_one {x : Bool} {k : Nat} (h : x.toNat = k) : x = (k == 1) := by
  subst h
  cases x <;> rfl

/-- Settles O3: the fields as numbers are those the decoder extracts, and OP selects the row. -/
theorem decoderReadsFieldTable : Obligations.DecoderReadsFieldTable := by
  intro w op sel r t a h
  obtain ⟨hop, hsel, hr, ht, ha⟩ := toNat_of_hasFields h
  rw [← bitVec_eq_ofNat hsel, ← bool_eq_beq_one hr, ← bool_eq_beq_one ht, ← bitVec_eq_ofNat ha]
  subst hop
  refine ⟨decode_of_op_zero, decode_of_op_one, decode_of_op_two, decode_of_op_three,
    fun hop => ⟨Sel.ofBits w.sel, decode_of_op_four hop, ?_⟩, decode_of_op_five, decode_of_op_six, decode_of_op_seven⟩
  subst hsel
  generalize w.sel = b
  revert b
  decide

/-- Settles O4: each word is decoded. -/
theorem specWordsDecode : Obligations.SpecWordsDecode := by
  unfold Obligations.SpecWordsDecode
  decide

/-! ### What the legality check looks at (30_encoding.md R94, R101) -/

/-- Settles O6: every row but RD reads the kind alone, and RD reads its selector's size beside it. -/
theorem legalityNeedsKindAndSizesOnly : Obligations.LegalityNeedsKindAndSizesOnly := by
  intro c c' i hkind hsize
  cases i with
  | rd sel r t a => simp only [check, hkind, hsize]
  | _ => simp only [check, hkind]

end Sys2Proof.Machine
end

section
namespace Sys2Proof

open Machine

/-! ### The widths of a legal configuration (60_exceptions.md R203) -/

/-- The widths of S, within the ranges of R203. -/
structure Config.SmithWidths (c : Config) : Prop where
  one_le_cbS : 1 ≤ c.cbS
  cbS_le : c.cbS ≤ 64

/-- The widths of T and G, within the ranges of R203. -/
structure Config.TableWidths (c : Config) : Prop where
  m_le : c.m ≤ 62
  n_le_m : c.n ≤ c.m
  one_le_cbT : 1 ≤ c.cbT
  cbT_le : c.cbT ≤ 64

/-- The widths of C, TG, GG and TB, and the chooser's reset value, within the ranges of R203. -/
structure Config.HybridWidths (c : Config) : Prop where
  k_le : c.k ≤ 62
  m1_le : c.m1 ≤ 62
  m2_le : c.m2 ≤ 62
  n_le_m1 : c.n ≤ c.m1
  one_le_cbT : 1 ≤ c.cbT
  cbT_le : c.cbT ≤ 64
  one_le_cbC : 1 ≤ c.cbC
  cbC_le : c.cbC ≤ 64
  ci_lt : c.ci < pow2 c.cbC

section
variable {c : Config} (hl : c.legal = true)
include hl

theorem Config.smithWidths (hk : c.kind = .smith) : c.SmithWidths := by
  cases hp : c.params with
  | smith cbS =>
    obtain ⟨⟨-, hmax, -⟩, hone, hle⟩ := (Config.legal_smith_iff hp).1 hl
    have hcbS : c.cbS = cbS := by rw [Config.cbS, hp]
    constructor <;> omega
  | bimodal | gshare | hybrid => simp [Config.kind, hp] at hk

theorem Config.tableWidths (hk : c.kind = .gshare ∨ c.kind = .bimodal) : c.TableWidths := by
  cases hp : c.params with
  | bimodal m cbT =>
    obtain ⟨⟨-, hmax, hmaxI⟩, hm, hone, hle⟩ := (Config.legal_bimodal_iff hp).1 hl
    have hwidths : c.m = m ∧ c.n = 0 ∧ c.cbT = cbT := by simp only [Config.m, Config.n, Config.cbT, hp, and_self]
    constructor <;> omega
  | gshare m n cbT =>
    obtain ⟨⟨-, hmax, hmaxI⟩, hm, hn, hone, hle⟩ := (Config.legal_gshare_iff hp).1 hl
    have hwidths : c.m = m ∧ c.n = n ∧ c.cbT = cbT := by simp only [Config.m, Config.n, Config.cbT, hp, and_self]
    constructor <;> omega
  | smith | hybrid => simp [Config.kind, hp] at hk

theorem Config.hybridWidths (hk : c.kind = .hybrid) : c.HybridWidths := by
  cases hp : c.params with
  | hybrid k n m1 m2 cbT cbC ci =>
    obtain ⟨⟨-, hmax, hmaxI⟩, hkI, hm1, hm2, hn, honeT, hleT, honeC, hleC, hci⟩ := (Config.legal_hybrid_iff hp).1 hl
    have hsizes : c.k = k ∧ c.n = n ∧ c.m1 = m1 ∧ c.m2 = m2 := by
      simp only [Config.k, Config.n, Config.m1, Config.m2, hp, and_self]
    have hwidths : c.cbT = cbT ∧ c.cbC = cbC ∧ c.ci = ci := by
      simp only [Config.cbT, Config.cbC, Config.ci, hp, and_self]
    have hci_lt : c.ci < pow2 c.cbC := by
      rw [hwidths.2.1, hwidths.2.2]
      exact Nat.lt_of_le_sub_one (pow2_pos cbC) hci
    refine ⟨?_, ?_, ?_, ?_, ?_, ?_, ?_, ?_, hci_lt⟩ <;> omega
  | smith | bimodal | gshare => simp [Config.kind, hp] at hk

end

/-! ### The commands that some configuration accepts (30_encoding.md R90, R91, R94) -/

theorem wellFormed_of_check_eq_none {c : Config} {i : Instr} (h : check c i = none) : i.wellFormed = true := by
  cases i with
  | nop sel r t a =>
    obtain ⟨rfl, rfl, rfl, rfl⟩ := (check_nop_eq_none ..).1 h
    rfl
  | puSmith sel r t a =>
    obtain ⟨-, rfl, rfl⟩ := (check_puSmith_eq_none ..).1 h
    rfl
  | puGshare sel r t a =>
    obtain ⟨-, rfl, rfl⟩ := (check_puGshare_eq_none ..).1 h
    rfl
  | puHybrid sel r t a =>
    obtain ⟨-, rfl, rfl⟩ := (check_puHybrid_eq_none ..).1 h
    rfl
  | rd sel r t a =>
    obtain ⟨rfl, rfl, hsel, -, -⟩ := (check_rd_eq_none ..).1 h
    simp [Instr.wellFormed, hsel]
  | reservedOp101 | reservedOp110 | reservedOp111 => cases h

/-- How many indices of a selector some legal configuration has: one for S and the history registers, as many as
the widest index counts for a table (R7, R89). -/
def Sel.maxSize (sel : Sel) : Nat := if sel = .smithCtr ∨ sel = .ghr then 1 else 2 ^ 62

theorem Sel.size_le_maxSize {c : Config} {sel : Sel} (hl : c.legal = true) (hp : sel.present c.kind = true) :
    sel.size c ≤ sel.maxSize := by
  have table {w : Nat} (hw : w ≤ 62) : pow2 w ≤ 2 ^ 62 := Nat.pow_le_pow_right (by decide) hw
  cases sel with
  | smithCtr | ghr => exact Nat.le_refl 1
  | gshareTable => exact table (Config.tableWidths hl (Sel.present_gshareTable_iff.1 hp)).m_le
  | chooser => exact table (Config.hybridWidths hl (Sel.present_chooser_iff.1 hp)).k_le
  | hybGshareTable => exact table (Config.hybridWidths hl (Sel.present_hybGshareTable_iff.1 hp)).m1_le
  | hybBimodalTable => exact table (Config.hybridWidths hl (Sel.present_hybBimodalTable_iff.1 hp)).m2_le
  | reserved110 | reserved111 => cases hp

/-- A legal configuration of each kind with the widest tables R7 allows. -/
def widestConfig (k : Kind) : Config where
  params :=
    match k with
    | .smith => .smith 1
    | .bimodal => .bimodal 62 1
    | .gshare => .gshare 62 0 1
    | .hybrid => .hybrid 62 0 62 62 1 1 0
  maxCounterBits := 64
  maxIndexBits := 62

theorem widestConfig_legal (k : Kind) : (widestConfig k).legal = true := by
  cases k <;> decide

theorem widestConfig_kind (k : Kind) : (widestConfig k).kind = k := by
  cases k <;> rfl

/-- Every selector that is not reserved is read at its largest size on some kind. -/
theorem Sel.exists_widest {sel : Sel} (h : sel.isReserved = false) :
    ∃ k, sel.present k = true ∧ sel.size (widestConfig k) = sel.maxSize := by
  cases sel with
  | smithCtr => exact ⟨.smith, rfl, rfl⟩
  | gshareTable => exact ⟨.gshare, rfl, rfl⟩
  | chooser | hybGshareTable | hybBimodalTable | ghr => exact ⟨.hybrid, rfl, rfl⟩
  | reserved110 | reserved111 => cases h

/-- A well-formed command with an index that some element has is accepted on some kind's widest configuration. -/
theorem exists_check_widest_eq_none {i : Instr} (hw : i.wellFormed = true)
    (hsize : ∀ sel r t a, i = .rd sel r t a → a.toNat < sel.maxSize) :
    ∃ k, check (widestConfig k) i = none := by
  cases i with
  | nop sel r t a =>
    obtain ⟨⟨⟨rfl, rfl⟩, rfl⟩, rfl⟩ : ((sel = 0 ∧ r = false) ∧ t = false) ∧ a = 0 := by
      simpa [Instr.wellFormed] using hw
    exact ⟨.smith, rfl⟩
  | puSmith sel r t a =>
    exact ⟨.smith, (check_puSmith_eq_none ..).2 ⟨rfl, by simpa [Instr.wellFormed] using hw⟩⟩
  | puGshare sel r t a =>
    exact ⟨.gshare, (check_puGshare_eq_none ..).2 ⟨.inl rfl, by simpa [Instr.wellFormed] using hw⟩⟩
  | puHybrid sel r t a =>
    exact ⟨.hybrid, (check_puHybrid_eq_none ..).2 ⟨rfl, by simpa [Instr.wellFormed] using hw⟩⟩
  | rd sel r t a =>
    obtain ⟨⟨hr, ht⟩, hsel⟩ : (r = false ∧ t = false) ∧ sel.isReserved = false := by
      simpa [Instr.wellFormed] using hw
    obtain ⟨k, hp, hk⟩ := Sel.exists_widest hsel
    refine ⟨k, (check_rd_eq_none ..).2 ⟨hr, ht, hsel, ?_, ?_⟩⟩
    · rwa [widestConfig_kind]
    · rw [hk]
      exact hsize sel r t a rfl
  | reservedOp101 | reservedOp110 | reservedOp111 => cases hw

/-- Settles O7: the check of an accepted RD bounds its index by the size of its element, and the widest
configurations reach that bound. -/
theorem acceptedBySomeConfiguration : Obligations.AcceptedBySomeConfiguration := by
  refine ⟨fun c i => wellFormed_of_check_eq_none, fun i => ⟨?_, fun ⟨hw, hsize⟩ => ?_⟩⟩
  · rintro ⟨c, hl, hc⟩
    refine ⟨wellFormed_of_check_eq_none hc, ?_⟩
    rintro sel r t a rfl
    obtain ⟨-, -, -, hp, ha⟩ := (check_rd_eq_none ..).1 hc
    exact Nat.lt_of_lt_of_le ha (Sel.size_le_maxSize hl hp)
  · obtain ⟨k, hk⟩ := exists_check_widest_eq_none hw hsize
    exact ⟨widestConfig k, widestConfig_legal k, hk⟩

end Sys2Proof
end

section
namespace Sys2Proof.Machine

/-! ### The invariant, kind by kind (10_state.md R30, R33 to R35, R39) -/

section
variable {s : State}

theorem State.elementsOk_smith_iff (hk : s.cfg.kind = .smith) : s.elementsOk = true ↔
    s.ctrS < pow2 s.cfg.cbS ∧ s.noTable = true ∧ s.noHybrid = true := by
  simp only [State.elementsOk, hk, Bool.and_eq_true, decide_eq_true_eq, and_assoc]

theorem State.elementsOk_table_iff (hk : s.cfg.kind = .gshare ∨ s.cfg.kind = .bimodal) : s.elementsOk = true ↔
    s.wfT = true ∧ s.ghrG < pow2 s.cfg.n ∧ s.ctrS = 0 ∧ s.noHybrid = true := by
  rcases hk with hk | hk <;>
    simp only [State.elementsOk, hk, Bool.and_eq_true, decide_eq_true_eq, beq_iff_eq, and_assoc]

theorem State.elementsOk_hybrid_iff (hk : s.cfg.kind = .hybrid) : s.elementsOk = true ↔
    s.wfC = true ∧ s.wfTG = true ∧ s.wfTB = true ∧ s.ghrGG < pow2 s.cfg.n ∧ s.ctrS = 0 ∧ s.noTable = true := by
  simp only [State.elementsOk, hk, Bool.and_eq_true, decide_eq_true_eq, beq_iff_eq, and_assoc]

/-- The elements alone decide the invariant: the channels have no part in it. -/
theorem State.Inv.with_channels (h : s.Inv) (qs : List Request) (rs : List ResponseWord) :
    State.Inv { s with requests := qs, responses := rs } := h

/-! ### What the invariant says of the values read -/

section Table
variable (h : s.Inv) (hk : s.cfg.kind = .gshare ∨ s.cfg.kind = .bimodal)
include h hk

theorem State.Inv.ghrG_lt : s.ghrG < pow2 s.cfg.n := by
  obtain ⟨-, hg, -⟩ := (State.elementsOk_table_iff hk).1 h.2
  exact hg

theorem State.Inv.indexT_lt (a : Address) : s.indexT a < pow2 s.cfg.m :=
  gshareIndex_lt a s.ghrG _ _ (h.ghrG_lt hk) (Config.tableWidths h.1.1 hk).n_le_m

theorem State.Inv.readT_lt (i : Nat) : s.readT i < pow2 s.cfg.cbT := by
  obtain ⟨hT, -⟩ := (State.elementsOk_table_iff hk).1 h.2
  exact Table.read_lt _ _ _ i _ (threshold_lt_pow2 _ (Config.tableWidths h.1.1 hk).one_le_cbT) hT

end Table

section Hybrid
variable (h : s.Inv) (hk : s.cfg.kind = .hybrid)
include h hk

theorem State.Inv.ghrGG_lt : s.ghrGG < pow2 s.cfg.n := by
  obtain ⟨-, -, -, hgg, -⟩ := (State.elementsOk_hybrid_iff hk).1 h.2
  exact hgg

theorem State.Inv.indexTG_lt (a : Address) : s.indexTG a < pow2 s.cfg.m1 :=
  gshareIndex_lt a s.ghrGG _ _ (h.ghrGG_lt hk) (Config.hybridWidths h.1.1 hk).n_le_m1

theorem State.Inv.readC_lt (i : Nat) : s.readC i < pow2 s.cfg.cbC := by
  obtain ⟨hC, -⟩ := (State.elementsOk_hybrid_iff hk).1 h.2
  exact Table.read_lt _ _ _ i _ (Config.hybridWidths h.1.1 hk).ci_lt hC

theorem State.Inv.readTG_lt (i : Nat) : s.readTG i < pow2 s.cfg.cbT := by
  obtain ⟨-, hTG, -⟩ := (State.elementsOk_hybrid_iff hk).1 h.2
  exact Table.read_lt _ _ _ i _ (threshold_lt_pow2 _ (Config.hybridWidths h.1.1 hk).one_le_cbT) hTG

theorem State.Inv.readTB_lt (i : Nat) : s.readTB i < pow2 s.cfg.cbT := by
  obtain ⟨-, -, hTB, -⟩ := (State.elementsOk_hybrid_iff hk).1 h.2
  exact Table.read_lt _ _ _ i _ (threshold_lt_pow2 _ (Config.hybridWidths h.1.1 hk).one_le_cbT) hTB

end Hybrid

end

theorem State.indexC_lt (s : State) (a : Address) : s.indexC a < pow2 s.cfg.k := chooserIndex_lt a s.cfg.k

/-- The Bimodal component's history has no bit, so its index needs no bound on a history. -/
theorem State.indexTB_lt (s : State) (a : Address) : s.indexTB a < pow2 s.cfg.m2 := pcIndex_lt a s.cfg.m2

/-- Settles O23: the PC bits are masked to the index width, and the history is no wider than the index. -/
theorem indicesStayInTheirTables : Obligations.IndicesStayInTheirTables :=
  fun s a h => ⟨fun hk => h.indexT_lt hk a,
    fun hk => ⟨s.indexC_lt a, h.indexTG_lt hk a, s.indexTB_lt a⟩⟩

/-! ### The tables PU.HYBRID writes (43_hybrid.md R164, R166) -/

section
variable (s : State) (t : Bool) (a : Address)

theorem State.puHybrid_tabC : (s.puHybrid t a).tabC = s.tabC.write (fillC s.cfg) (s.indexC a)
    (chooserUpdate s.cfg.cbC (s.readC (s.indexC a)) (s.predG a) (s.predB a) t) := by rw [State.puHybrid_eq]

theorem State.puHybrid_tabTG : (s.puHybrid t a).tabTG = if s.useG a then
      s.tabTG.write (fillT s.cfg) (s.indexTG a) (ctrUpdate s.cfg.cbT (s.readTG (s.indexTG a)) t)
    else s.tabTG := by rw [State.puHybrid_eq]

theorem State.puHybrid_tabTB : (s.puHybrid t a).tabTB = if s.useG a then s.tabTB
    else s.tabTB.write (fillT s.cfg) (s.indexTB a) (ctrUpdate s.cfg.cbT (s.readTB (s.indexTB a)) t) := by
  rw [State.puHybrid_eq]

end

/-! ### Every step keeps the invariant -/

theorem chooserUpdate_lt_pow2 (b v : Nat) (pg pb t : Bool) (hv : v < pow2 b) :
    chooserUpdate b v pg pb t < pow2 b := by
  unfold chooserUpdate
  split
  · exact hv
  · split
    · exact ctrInc_lt_pow2 b v hv
    · exact ctrDec_lt_pow2 b v hv

theorem State.resetOf_ctrS_of_not_smith {c : Config} (hk : c.kind ≠ .smith) : (State.resetOf c).ctrS = 0 := by
  cases hkind : c.kind with
  | smith => exact absurd hkind hk
  | bimodal | gshare | hybrid => simp only [State.resetOf_ctrS, resetCtrS, hkind]

/-- A legal configuration's reset values are values of their widths. -/
theorem State.resetOf_inv {c : Config} (hl : c.legal = true) : (State.resetOf c).Inv := by
  refine ⟨⟨hl, rfl⟩, ?_⟩
  cases hk : c.kind with
  | smith =>
    refine (State.elementsOk_smith_iff hk).2 ⟨?_, rfl, rfl⟩
    rw [State.resetOf_ctrS_of_smith hk]
    exact threshold_lt_pow2 _ (Config.smithWidths hl hk).one_le_cbS
  | bimodal =>
    exact (State.elementsOk_table_iff (.inr hk)).2
      ⟨rfl, pow2_pos _, State.resetOf_ctrS_of_not_smith (by simp [hk]), rfl⟩
  | gshare =>
    exact (State.elementsOk_table_iff (.inl hk)).2
      ⟨rfl, pow2_pos _, State.resetOf_ctrS_of_not_smith (by simp [hk]), rfl⟩
  | hybrid =>
    exact (State.elementsOk_hybrid_iff hk).2
      ⟨rfl, rfl, rfl, pow2_pos _, State.resetOf_ctrS_of_not_smith (by simp [hk]), rfl⟩

section
variable {s : State} (h : s.Inv) (t : Bool) (a : Address)
include h

theorem State.Inv.puSmith (hk : s.cfg.kind = .smith) : (s.puSmith t).Inv := by
  obtain ⟨hS, hother⟩ := (State.elementsOk_smith_iff hk).1 h.2
  exact ⟨h.1, (State.elementsOk_smith_iff (s := s.puSmith t) hk).2 ⟨ctrUpdate_lt_pow2 _ _ t hS, hother⟩⟩

theorem State.Inv.puGshare (hk : s.cfg.kind = .gshare ∨ s.cfg.kind = .bimodal) : (s.puGshare t a).Inv := by
  obtain ⟨hT, hG, hother⟩ := (State.elementsOk_table_iff hk).1 h.2
  have hT' := Table.wf_write _ _ _ _ _ _ (h.indexT_lt hk a) (ctrUpdate_lt_pow2 _ _ t (h.readT_lt hk (s.indexT a))) hT
  exact ⟨h.1, (State.elementsOk_table_iff (s := s.puGshare t a) hk).2 ⟨hT', ghrUpdate_lt _ _ t hG, hother⟩⟩

/-- The selected component's table and the chooser are written at indices inside them, the other table is left. -/
theorem State.Inv.puHybrid (hk : s.cfg.kind = .hybrid) : (s.puHybrid t a).Inv := by
  obtain ⟨hC, hTG, hTB, hGG, hother⟩ := (State.elementsOk_hybrid_iff hk).1 h.2
  have hC' := Table.wf_write _ _ _ _ _ _ (s.indexC_lt a)
    (chooserUpdate_lt_pow2 _ _ (s.predG a) (s.predB a) t (h.readC_lt hk (s.indexC a))) hC
  have hTG' := Table.wf_write _ _ _ _ _ _ (h.indexTG_lt hk a)
    (ctrUpdate_lt_pow2 _ _ t (h.readTG_lt hk (s.indexTG a))) hTG
  have hTB' := Table.wf_write _ _ _ _ _ _ (s.indexTB_lt a)
    (ctrUpdate_lt_pow2 _ _ t (h.readTB_lt hk (s.indexTB a))) hTB
  refine ⟨by simpa [State.Ready] using h.1, (State.elementsOk_hybrid_iff (by rwa [State.puHybrid_cfg])).2
    ⟨?wfC, ?wfTG, ?wfTB, ?ghrGG, by simpa [State.noTable] using hother⟩⟩
  case wfC =>
    rw [State.wfC, State.puHybrid_tabC, State.puHybrid_cfg]
    exact hC'
  case wfTG =>
    rw [State.wfTG, State.puHybrid_tabTG, State.puHybrid_cfg]
    split
    · exact hTG'
    · exact hTG
  case wfTB =>
    rw [State.wfTB, State.puHybrid_tabTB, State.puHybrid_cfg]
    split
    · exact hTB
    · exact hTB'
  case ghrGG =>
    rw [State.puHybrid_ghrGG, State.puHybrid_cfg]
    exact ghrUpdate_lt _ _ t hGG

theorem effectOf_inv {i : Instr} (hc : check s.cfg i = none) : (effectOf i s).Inv := by
  cases i with
  | nop => exact h
  | puSmith sel r t a => exact h.puSmith t ((check_puSmith_eq_none ..).1 hc).1
  | puGshare sel r t a => exact h.puGshare t a ((check_puGshare_eq_none ..).1 hc).1
  | puHybrid sel r t a => exact h.puHybrid t a ((check_puHybrid_eq_none ..).1 hc).1
  | rd sel r t a =>
    obtain ⟨w, hw⟩ := s.readOut_cases sel a
    rw [effectOf, hw]
    exact h
  | reservedOp101 | reservedOp110 | reservedOp111 => cases hc

theorem exec_inv {i : Instr} {s' : State} (hexec : exec i s = .next s') : s'.Inv := by
  obtain ⟨-, ⟨e, -, rfl⟩ | ⟨hc, rfl⟩⟩ := exec_cases hexec
  · exact h
  · exact effectOf_inv h hc

end

/-- Settles O49: the configuration of `State.reset` is legal too. -/
theorem resetMeetsInvariant : Obligations.ResetMeetsInvariant :=
  ⟨fun _ hl => State.resetOf_inv hl, State.resetOf_inv (by decide)⟩

/-- Settles O50: a step idles, resets, or runs a command on the state with that command taken. -/
theorem stepKeepsInvariant : Obligations.StepKeepsInvariant := by
  intro s s' h hstep
  obtain ⟨-, rfl⟩ | ⟨rest, -, hl, rfl⟩ | ⟨w, rest, -, hexec⟩ := step_cases hstep
  · exact h
  · exact (State.resetOf_inv hl).with_channels rest s.responses
  · exact exec_inv (h.with_channels rest s.responses) hexec

end Sys2Proof.Machine
end

section
namespace Sys2Proof.Machine

/-! ### What one step of each request is (30_encoding.md R80, 60_exceptions.md R214, 70_reset_and_hazards.md R232) -/

/-- Settles O41: the decoder gives back the command whose word was presented. -/
theorem stepRunsDecodedCommand : Obligations.StepRunsDecodedCommand := by
  refine fun s rest => ⟨fun w hq => step_command hq, fun i hq => ?_, step_reset⟩
  rw [step_command hq, decode_encode]

/-- Settles O42: an empty channel is the idle step. -/
theorem idleChangesNothing : Obligations.IdleChangesNothing := fun _ => step_idle

/-- Settles O48: the step is the reset of a legal configuration. -/
theorem resetDiscardsTraining : Obligations.ResetDiscardsTraining := fun _ _ => step_reset_of_legal

/-- Settles O51: an idle step changes nothing, a reset makes a legal instance ready, a command is answered. -/
theorem readyMachineNeverStops : Obligations.ReadyMachineNeverStops := by
  intro s hr
  match hq : s.requests with
  | [] => exact ⟨s, step_idle hq, hr⟩
  | .reset :: rest => exact ⟨_, step_reset_of_legal hr.1 hq, hr.1, rfl⟩
  | .command w :: rest =>
    obtain ⟨s', r, h⟩ := exists_answered hr hq
    exact ⟨s', h.step_eq, h.ready⟩

/-! ### Rejected commands, row by row (30_encoding.md R90, R91) -/

/-- Settles O37: the reserved rows fail the first check. -/
theorem reservedOperationsAnswerError : Obligations.ReservedOperationsAnswerError :=
  fun _ _ _ _ _ hr => ⟨exec_of_rejected (e := .rsvdOp) hr rfl, exec_of_rejected (e := .rsvdOp) hr rfl,
    exec_of_rejected (e := .rsvdOp) hr rfl⟩

section
variable {c : Config} {sel : BitVec 3} {r t : Bool} {a : Address}

theorem check_puSmith_of_other_kind (hk : c.kind ≠ .smith) : check c (.puSmith sel r t a) = some .wrongKind :=
  if_pos hk

theorem check_puGshare_of_other_kind (hg : c.kind ≠ .gshare) (hb : c.kind ≠ .bimodal) :
    check c (.puGshare sel r t a) = some .wrongKind :=
  if_pos ⟨hg, hb⟩

theorem check_puHybrid_of_other_kind (hk : c.kind ≠ .hybrid) : check c (.puHybrid sel r t a) = some .wrongKind :=
  if_pos hk

theorem check_puSmith_of_own_kind (hk : c.kind = .smith) : check c (.puSmith sel r t a) = puFieldCheck sel r :=
  if_neg (not_not.2 hk)

theorem check_puGshare_of_own_kind (hk : c.kind = .gshare ∨ c.kind = .bimodal) :
    check c (.puGshare sel r t a) = puFieldCheck sel r :=
  if_neg (not_and_or.2 (hk.imp not_not.2 not_not.2))

theorem check_puHybrid_of_own_kind (hk : c.kind = .hybrid) : check c (.puHybrid sel r t a) = puFieldCheck sel r :=
  if_neg (not_not.2 hk)

end

/-- `exec_of_rejected` with the error's code named, so that a number can stand for it. -/
theorem exec_of_rejected_code {s : State} {i : Instr} {e : CmdError} {code : Nat} (hr : s.Ready)
    (hc : check s.cfg i = some e) (hcode : errorCode e = code) :
    exec i s = .next { s with responses := s.responses ++ [0b10#2 ++ BitVec.ofNat 64 code] } := by
  subst hcode
  exact exec_of_rejected hr hc

/-- Settles O38: the kind is checked before the fields. -/
theorem illegalPuAnswersItsCode : Obligations.IllegalPuAnswersItsCode := by
  intro s sel r t a hr rejected
  have hwrong {i : Instr} (hc : check s.cfg i = some .wrongKind) : exec i s = rejected 2 :=
    exec_of_rejected_code hr hc rfl
  have hfield {i : Instr} (hnz : sel ≠ 0 ∨ r = true) (hc : check s.cfg i = puFieldCheck sel r) :
      exec i s = rejected 3 := exec_of_rejected_code hr (hc.trans (puFieldCheck_of_nonzero hnz)) rfl
  exact ⟨fun hk => hwrong (check_puSmith_of_other_kind hk),
    fun hg hb => hwrong (check_puGshare_of_other_kind hg hb),
    fun hk => hwrong (check_puHybrid_of_other_kind hk),
    fun hnz => ⟨fun hk => hfield hnz (check_puSmith_of_own_kind hk),
      fun hk => hfield hnz (check_puGshare_of_own_kind hk),
      fun hk => hfield hnz (check_puHybrid_of_own_kind hk)⟩⟩

/-! ### Who writes what (10_state.md section 2, 20_memory.md section 3) -/

theorem sameElements_emit (s : State) (w : ResponseWord) : sameElements s (s.emit w) :=
  ⟨rfl, rfl, rfl, rfl, rfl, rfl, rfl, rfl, rfl, rfl⟩

/-- An RD or a NOP is answered by one word, the error's or its own, and does nothing else. -/
theorem exec_rd_nop_cases {i : Instr} {s s' : State} (hop : i.op = 0b000#3 ∨ i.op = 0b100#3)
    (h : exec i s = .next s') : ∃ w, s' = s.emit w := by
  obtain ⟨-, ⟨e, -, rfl⟩ | ⟨-, rfl⟩⟩ := exec_cases h
  · exact ⟨_, rfl⟩
  · cases i with
    | nop => exact ⟨_, rfl⟩
    | rd sel r t a => exact s.readOut_cases sel a
    | puSmith | puGshare | puHybrid | reservedOp101 | reservedOp110 | reservedOp111 =>
      exact absurd hop (by simp only [Instr.op]; decide)

/-- Settles O36: emitting a word leaves every element and the requests. -/
theorem rdAndNopChangeNoState : Obligations.RdAndNopChangeNoState := by
  intro s s' i hop h
  obtain ⟨w, rfl⟩ := exec_rd_nop_cases hop h
  exact ⟨sameElements_emit s w, rfl⟩

/-- An element that differs from `s` to `s'` is written by the command `i` on the instance of `s`, and the
elements that no command writes do not differ. -/
structure WritesOnlyItsOwn (i : Instr) (s s' : State) : Prop where
  smith : s'.ctrS ≠ s.ctrS → s.cfg.kind = .smith ∧ i.op = 0b001#3
  table : s'.tabT ≠ s.tabT ∨ s'.ghrG ≠ s.ghrG →
    (s.cfg.kind = .gshare ∨ s.cfg.kind = .bimodal) ∧ i.op = 0b010#3
  hybrid : s'.tabC ≠ s.tabC ∨ s'.tabTG ≠ s.tabTG ∨ s'.ghrGG ≠ s.ghrGG ∨ s'.tabTB ≠ s.tabTB →
    s.cfg.kind = .hybrid ∧ i.op = 0b011#3
  ghrGB_eq : s'.ghrGB = s.ghrGB
  resetDone_eq : s'.resetDone = s.resetDone

theorem WritesOnlyItsOwn.of_sameElements {s s' : State} (h : sameElements s s') (i : Instr) :
    WritesOnlyItsOwn i s s' := by
  obtain ⟨-, hreset, hS, hT, hG, hC, hTG, hGG, hTB, hGB⟩ := h
  exact ⟨fun hne => absurd hS hne, by simp [hT, hG], by simp [hC, hTG, hGG, hTB], hGB, hreset⟩

/-- Each PU command is accepted on its own kind alone, and writes elements of that kind alone. -/
theorem effectOf_writesOnlyItsOwn {i : Instr} {s : State} (hc : check s.cfg i = none) :
    WritesOnlyItsOwn i s (effectOf i s) := by
  cases i with
  | nop => exact .of_sameElements (sameElements_emit s _) _
  | rd sel r t a =>
    obtain ⟨w, hw⟩ := s.readOut_cases sel a
    rw [effectOf, hw]
    exact .of_sameElements (sameElements_emit s w) _
  | puSmith sel r t a =>
    obtain ⟨hk, -⟩ := (check_puSmith_eq_none ..).1 hc
    exact ⟨fun _ => ⟨hk, rfl⟩, fun hne => by simp [effectOf, State.puSmith_eq] at hne,
      fun hne => by simp [effectOf, State.puSmith_eq] at hne, rfl, rfl⟩
  | puGshare sel r t a =>
    obtain ⟨hk, -⟩ := (check_puGshare_eq_none ..).1 hc
    exact ⟨fun hne => by simp [effectOf, State.puGshare_eq] at hne, fun _ => ⟨hk, rfl⟩,
      fun hne => by simp [effectOf, State.puGshare_eq] at hne, rfl, rfl⟩
  | puHybrid sel r t a =>
    obtain ⟨hk, -⟩ := (check_puHybrid_eq_none ..).1 hc
    exact ⟨fun hne => absurd (s.puHybrid_ctrS t a) hne,
      fun hne => absurd ⟨s.puHybrid_tabT t a, s.puHybrid_ghrG t a⟩ (not_and_or.2 hne),
      fun _ => ⟨hk, rfl⟩, s.puHybrid_ghrGB t a, s.puHybrid_resetDone t a⟩
  | reservedOp101 | reservedOp110 | reservedOp111 => cases hc

theorem exec_writesOnlyItsOwn {i : Instr} {s s' : State} (h : exec i s = .next s') : WritesOnlyItsOwn i s s' := by
  obtain ⟨-, ⟨e, -, rfl⟩ | ⟨hc, rfl⟩⟩ := exec_cases h
  · exact .of_sameElements (sameElements_emit s _) i
  · exact effectOf_writesOnlyItsOwn hc

/-- Settles O44: a step that takes no reset idles or runs the command at the head of the channel. -/
theorem onlyItsOwnCommandWritesAnElement : Obligations.OnlyItsOwnCommandWritesAnElement := by
  intro s s' hstep hreset
  obtain ⟨-, rfl⟩ | ⟨rest, hq, -⟩ | ⟨w, rest, hq, hexec⟩ := step_cases hstep
  · simp
  · exact absurd hq (hreset rest)
  · obtain ⟨hS, hT, hC, hGB, hdone⟩ := exec_writesOnlyItsOwn hexec
    have hhead {op : BitVec 3} (hop : (decode w).op = op) : headOp s op := ⟨w, rest, hq, hop⟩
    exact ⟨fun hne => (hS hne).imp_right hhead, fun hne => (hT hne).imp_right hhead,
      fun hne => (hC hne).imp_right hhead, hGB, hdone⟩

/-! ### The configuration is an argument (00_scope.md R8) -/

theorem exec_cfg {i : Instr} {s s' : State} (h : exec i s = .next s') : s'.cfg = s.cfg := by
  obtain ⟨-, ⟨e, -, rfl⟩ | ⟨-, rfl⟩⟩ := exec_cases h
  · rfl
  · exact (effectOf_frame i s).1

theorem step_cfg {s s' : State} (h : step s = .next s') : s'.cfg = s.cfg := by
  obtain ⟨-, rfl⟩ | ⟨rest, -, -, rfl⟩ | ⟨w, rest, -, hexec⟩ := step_cases h
  · rfl
  · rfl
  · exact exec_cfg (s := { s with requests := rest }) hexec

theorem run_succ_of_refused {s : State} {q : Refusal} (h : step s = .refused q) (k : Nat) :
    Host.Core.run Sys2Proof.core (k + 1) s = .refused q := by
  have hcore : Sys2Proof.core.step s = .refused q := h
  simp only [Host.Core.run, hcore]

theorem run_cfg {k : Nat} : ∀ {s s' : State}, Host.Core.run Sys2Proof.core k s = .next s' → s'.cfg = s.cfg := by
  induction k with
  | zero => rintro s _ ⟨⟩; rfl
  | succ k ih =>
    intro s s' h
    cases hstep : step s with
    | next s₁ =>
      rw [run_succ_of_step hstep] at h
      exact (ih h).trans (step_cfg hstep)
    | refused q =>
      rw [run_succ_of_refused hstep] at h
      cases h
    | fault f => cases f

theorem under_instanceState_of_cfg {s : State} {c : Config} (h : s.cfg = c) : s.instanceState.under c = s := by
  subst h
  rfl

/-- A run of the machine of configuration `c` is the interface's run on the state with `c` beside it. -/
theorem run_machineOf (c : Config) (k : Nat) : ∀ p : InstanceState,
    Host.Core.run (machineOf c) k p = instanceOutcome (Host.Core.run Sys2Proof.core k (p.under c)) := by
  induction k with
  | zero => exact fun p => rfl
  | succ k ih =>
    intro p
    have hmachine := machineOf_step c p
    cases hstep : step (p.under c) with
    | next s =>
      have hs : s.instanceState.under c = s := under_instanceState_of_cfg (step_cfg hstep)
      rw [hstep] at hmachine
      rw [run_succ_of_step hstep, ← hs, ← ih]
      simp only [Host.Core.run, hmachine, instanceOutcome]
    | refused q =>
      rw [hstep] at hmachine
      rw [run_succ_of_refused hstep]
      simp only [Host.Core.run, hmachine, instanceOutcome]
      rfl
    | fault f => cases f

/-- Settles O43: the two runs are one, read without its configuration, which no step changes. -/
theorem configurationNeverChanges : Obligations.ConfigurationNeverChanges := by
  refine ⟨fun s s' => step_cfg, fun c k p => ?_⟩
  rw [run_machineOf]
  have hcfg {s : State} (h : Host.Core.run Sys2Proof.core k (p.under c) = .next s) : s.instanceState.under c = s :=
    under_instanceState_of_cfg (run_cfg h)
  cases hrun : Host.Core.run Sys2Proof.core k (p.under c) with
  | next s =>
    rw [← hcfg hrun]
    refine ⟨fun p' => ⟨fun h => ?_, fun h => ?_⟩, fun q => ⟨nofun, nofun⟩⟩
    · exact congrArg _ (InstanceState.under_inj.2 (Host.Outcome.next.inj h))
    · exact congrArg _ (InstanceState.under_inj.1 (Host.Outcome.next.inj h))
  | refused q =>
    refine ⟨fun p' => ⟨nofun, nofun⟩, fun q' => ⟨fun h => ?_, fun h => ?_⟩⟩
    · exact congrArg _ (Host.Outcome.refused.inj h)
    · exact congrArg _ (Host.Outcome.refused.inj h)
  | fault f => cases f

end Sys2Proof.Machine
end

section
namespace Sys2Proof.Machine

/-! ### What an accepted command answers (30_encoding.md R95) -/

/-- The response of an accepted command (42_smith.md R151, 41_gshare.md R136, 43_hybrid.md R164,
44_interface_ops.md R180, R182). A reserved command is never accepted. -/
def answerOf (i : Instr) (s : State) : ResponseWord :=
  match i with
  | .nop _ _ _ _ => responseWord false false 0
  | .puSmith _ _ _ _ => responseWord false (ctrTaken s.cfg.cbS s.ctrS) 0
  | .puGshare _ _ _ a => responseWord false (ctrTaken s.cfg.cbT (s.readT (s.indexT a))) 0
  | .puHybrid _ _ _ a => responseWord false (if s.useG a then s.predG a else s.predB a) 0
  | .rd sel _ _ a => responseWord false false (zext64 ((s.readElement sel a.toNat).getD 0))
  | .reservedOp101 _ _ _ _ => errorWord .rsvdOp
  | .reservedOp110 _ _ _ _ => errorWord .rsvdOp
  | .reservedOp111 _ _ _ _ => errorWord .rsvdOp

/-- The selector of an accepted RD has an element. -/
theorem readOut_of_accepted {s : State} {sel : Sel} {r t : Bool} {a : Address}
    (hc : check s.cfg (.rd sel r t a) = none) :
    s.readOut sel a = s.emit (responseWord false false (zext64 ((s.readElement sel a.toNat).getD 0))) := by
  obtain ⟨-, -, -, hp, -⟩ := (check_rd_eq_none ..).1 hc
  rw [← s.isSome_readElement sel a.toNat] at hp
  obtain ⟨v, hv⟩ := Option.isSome_iff_exists.1 hp
  simp only [State.readOut, hv, State.respond_eq, Option.getD_some]

/-- The responses already emitted play no part in an effect, which adds its answer after them. -/
theorem effectOf_with_responses {i : Instr} {s : State} (hc : check s.cfg i = none) (rs : List ResponseWord) :
    effectOf i { s with responses := rs } = { effectOf i s with responses := rs ++ [answerOf i s] } := by
  cases i with
  | nop | puSmith | puGshare => rfl
  | puHybrid sel r t a =>
    simp only [effectOf, State.puHybrid_eq]
    rfl
  | rd sel r t a =>
    rw [effectOf, effectOf, readOut_of_accepted hc, readOut_of_accepted (s := { s with responses := rs }) hc]
    rfl
  | reservedOp101 | reservedOp110 | reservedOp111 => cases hc

theorem effectOf_responses_eq {i : Instr} {s : State} (hc : check s.cfg i = none) :
    (effectOf i s).responses = s.responses ++ [answerOf i s] :=
  congrArg State.responses (effectOf_with_responses hc s.responses)

/-- PRED is the prediction of a PU command and DATA the value of an RD; the other rows answer 0 there. -/
theorem answerOf_fields {i : Instr} {s : State} (hc : check s.cfg i = none) :
    errBit (answerOf i s) = false ∧
    (predBit (answerOf i s) = true → i.op = 0b001#3 ∨ i.op = 0b010#3 ∨ i.op = 0b011#3) ∧
    (dataField (answerOf i s) ≠ 0 → i.op = 0b100#3) := by
  cases i with
  | reservedOp101 | reservedOp110 | reservedOp111 => cases hc
  | _ => simp [answerOf, Instr.op]

/-- Settles O40: a rejected command answers its error's word and an accepted one its answer. -/
theorem responseFields : Obligations.ResponseFields := by
  intro s i hr
  have hexec := exec_of_ready hr i
  cases hc : check s.cfg i with
  | some e =>
    rw [hc] at hexec
    exact ⟨_, errorWord e, hexec, rfl, by simp [errorWord], by simp [errorWord], by simp⟩
  | none =>
    rw [hc] at hexec
    obtain ⟨herr, hpred, hdata⟩ := answerOf_fields hc
    exact ⟨_, answerOf i s, hexec, effectOf_responses_eq hc, by simp [herr], fun h => ⟨rfl, hpred h⟩,
      fun h => .inr (hdata h)⟩

/-! ### Nothing reads a response (10_state.md R41) -/

/-- The state with `rs` in place of the responses emitted. -/
def State.withResponses (s : State) (rs : List ResponseWord) : State := { s with responses := rs }

/-- What a step or a command does with the response channel `rs`, given as an outcome for each `rs`: it is refused,
or it adds the same new responses and is otherwise the same, whatever `rs` holds. -/
inductive IgnoresResponses (f : List ResponseWord → Host.Outcome State Fault Refusal) : Prop where
  | refused (q : Refusal) (h : ∀ rs, f rs = .refused q)
  | next (s' : State) (new : List ResponseWord) (h : ∀ rs, f rs = .next (s'.withResponses (rs ++ new)))

theorem exec_ignoresResponses (i : Instr) (s : State) :
    IgnoresResponses fun rs => exec i (s.withResponses rs) := by
  cases hl : s.cfg.legal with
  | false => exact .refused _ fun rs => exec_of_illegal (s := s.withResponses rs) hl i
  | true =>
    cases hd : s.resetDone with
    | false => exact .refused _ fun rs => commandsBeforeResetRefused (s.withResponses rs) i hl hd
    | true =>
      have hexec (rs : List ResponseWord) := exec_of_ready (s := s.withResponses rs) ⟨hl, hd⟩ i
      have hcfg (rs : List ResponseWord) : (s.withResponses rs).cfg = s.cfg := rfl
      simp only [hcfg] at hexec
      cases hc : check s.cfg i with
      | some e =>
        simp only [hc] at hexec
        exact .next s [errorWord e] hexec
      | none =>
        simp only [hc] at hexec
        exact .next (effectOf i s) [answerOf i s] fun rs =>
          (hexec rs).trans (congrArg _ (effectOf_with_responses hc rs))

theorem step_ignoresResponses (s : State) : IgnoresResponses fun rs => step (s.withResponses rs) := by
  match hq : s.requests with
  | [] =>
    refine .next s [] fun rs => ?_
    rw [List.append_nil]
    exact step_idle hq
  | .reset :: rest =>
    cases hl : s.cfg.legal with
    | false => exact .refused _ fun rs => (illegalConfigurationRefused.2 (s.withResponses rs) hl).2 rest hq
    | true =>
      refine .next { State.resetOf s.cfg with requests := rest } [] fun rs => ?_
      rw [List.append_nil]
      exact step_reset_of_legal hl hq
  | .command w :: rest =>
    have hstep (rs : List ResponseWord) :
        step (s.withResponses rs) = exec (decode w) (State.withResponses { s with requests := rest } rs) :=
      step_command hq
    simp only [hstep]
    exact exec_ignoresResponses (decode w) { s with requests := rest }

/-- Settles O53: the step on the state's own responses is the step on any others. -/
theorem responsesAreNeverRead : Obligations.ResponsesAreNeverRead := by
  intro s rs
  obtain ⟨q, hq⟩ | ⟨s₁, new, hnext⟩ := step_ignoresResponses s
  · have hs : step s = .refused q := hq s.responses
    refine ⟨fun s' h => ?_, fun q' h => ?_⟩
    · rw [hs] at h
      cases h
    · rw [hs] at h
      exact (hq rs).trans h
  · have hs : step s = .next { s₁ with responses := s.responses ++ new } := hnext s.responses
    refine ⟨fun s' h => ?_, fun q h => ?_⟩
    · rw [hs] at h
      obtain rfl := Host.Outcome.next.inj h
      exact ⟨new, rfl, hnext rs⟩
    · rw [hs] at h
      cases h

/-! ### RD loses no bit (44_interface_ops.md R183) -/

theorem pow2_le_of_le_64 {b : Nat} (h : b ≤ 64) : pow2 b ≤ 2 ^ 64 := Nat.pow_le_pow_right (by decide) h

/-- The counters and histories of the kind are no wider than 64 bits. -/
theorem State.Inv.readElement_lt {s : State} (h : s.Inv) {sel : Sel} {i v : Nat}
    (hv : s.readElement sel i = some v) : v < 2 ^ 64 := by
  have hp : sel.present s.cfg.kind = true := by rw [← s.isSome_readElement sel i, hv, Option.isSome_some]
  cases sel with
  | smithCtr =>
    have hk := Sel.present_smithCtr_iff.1 hp
    obtain rfl := Option.some.inj ((State.readElement_smithCtr hk).symm.trans hv)
    exact Nat.lt_of_lt_of_le (h.ctrS_lt hk) (pow2_le_of_le_64 (Config.smithWidths h.1.1 hk).cbS_le)
  | gshareTable =>
    have hk := Sel.present_gshareTable_iff.1 hp
    obtain rfl := Option.some.inj ((State.readElement_gshareTable hk).symm.trans hv)
    exact Nat.lt_of_lt_of_le (h.readT_lt hk i) (pow2_le_of_le_64 (Config.tableWidths h.1.1 hk).cbT_le)
  | chooser =>
    have hk := Sel.present_chooser_iff.1 hp
    obtain rfl := Option.some.inj ((State.readElement_chooser hk).symm.trans hv)
    exact Nat.lt_of_lt_of_le (h.readC_lt hk i) (pow2_le_of_le_64 (Config.hybridWidths h.1.1 hk).cbC_le)
  | hybGshareTable =>
    have hk := Sel.present_hybGshareTable_iff.1 hp
    obtain rfl := Option.some.inj ((State.readElement_hybGshareTable hk).symm.trans hv)
    exact Nat.lt_of_lt_of_le (h.readTG_lt hk i) (pow2_le_of_le_64 (Config.hybridWidths h.1.1 hk).cbT_le)
  | hybBimodalTable =>
    have hk := Sel.present_hybBimodalTable_iff.1 hp
    obtain rfl := Option.some.inj ((State.readElement_hybBimodalTable hk).symm.trans hv)
    exact Nat.lt_of_lt_of_le (h.readTB_lt hk i) (pow2_le_of_le_64 (Config.hybridWidths h.1.1 hk).cbT_le)
  | ghr =>
    by_cases hk : s.cfg.kind = .hybrid
    · have hwidths := Config.hybridWidths h.1.1 hk
      obtain rfl := Option.some.inj ((State.readElement_ghr_of_hybrid hk).symm.trans hv)
      exact Nat.lt_of_lt_of_le (h.ghrGG_lt hk)
        (pow2_le_of_le_64 (hwidths.n_le_m1.trans (hwidths.m1_le.trans (by decide))))
    · have hk' : s.cfg.kind = .gshare ∨ s.cfg.kind = .bimodal := by
        cases hkind : s.cfg.kind <;> simp_all [Sel.present]
      have hwidths := Config.tableWidths h.1.1 hk'
      obtain rfl := Option.some.inj ((State.readElement_ghr_of_table hk').symm.trans hv)
      exact Nat.lt_of_lt_of_le (h.ghrG_lt hk')
        (pow2_le_of_le_64 (hwidths.n_le_m.trans (hwidths.m_le.trans (by decide))))
  | reserved110 | reserved111 => cases hp

/-- Settles O35: the answer holds the element's value modulo 2^64, and the value is below 2^64. -/
theorem rdReturnsWholeValue : Obligations.RdReturnsWholeValue := by
  intro s sel a h hc
  obtain ⟨-, -, -, hp, ha⟩ := (check_rd_eq_none ..).1 hc
  rw [← s.isSome_readElement sel a.toNat] at hp
  obtain ⟨v, hv⟩ := Option.isSome_iff_exists.1 hp
  refine ⟨v, _, _, hv, exec_rd_of_readElement h.1 hv ha, rfl, ?_⟩
  rw [← responseWord_value, dataField_responseWord, errBit_responseWord, predBit_responseWord, zext64,
    BitVec.toNat_ofNat, Nat.mod_eq_of_lt (h.readElement_lt hv)]
  exact ⟨rfl, rfl, rfl⟩

end Sys2Proof.Machine
end

section
namespace Sys2Proof.Machine

/-! ### Runs of a counter (40_counter.md section 2) -/

/-- Settles O19, by induction on the outcomes: each update stays below `2 ^ b`. -/
theorem counterStaysInRange : Obligations.CounterStaysInRange := by
  intro b v ts hv
  induction ts generalizing v with
  | nil => exact hv
  | cons t ts ih =>
    have hlt : v < pow2 b := Nat.lt_of_le_sub_one (pow2_pos b) hv
    exact ih _ (Nat.le_sub_one_of_lt (ctrUpdate_lt_pow2 b v t hlt))

theorem iterate_ctrDec (k v : Nat) : ctrDec^[k] v = v - k := by
  induction k generalizing v with
  | zero => rfl
  | succ k ih => rw [Function.iterate_succ_apply, ih, ctrDec_eq_sub_one, Nat.sub_sub, Nat.add_comm]

/-- The threshold halves the range. -/
theorem two_pow_eq_two_mul_threshold {b : Nat} (hb : 1 ≤ b) : 2 ^ b = 2 * 2 ^ (b - 1) := by
  rw [← Nat.pow_succ', Nat.succ_eq_add_one, Nat.sub_add_cancel hb]

/-- Settles O20: the ceiling is `2 ^ (b - 1) - 1` above the threshold. -/
theorem counterDistances : Obligations.CounterDistances := by
  intro b hb
  have hhalf := two_pow_eq_two_mul_threshold hb
  have hpos : 0 < 2 ^ (b - 1) := Nat.two_pow_pos _
  refine ⟨fun k => ?_, ?_, ?_⟩
  · rw [iterate_ctrDec, ctrTaken_iff, threshold_eq]
    omega
  · rw [ctrDec_eq_sub_one, Bool.eq_false_iff, Ne, ctrTaken_iff, threshold_eq]
    omega
  · rw [ctrInc_eq_min (by rw [ceiling_eq]; omega), ceiling_eq, ctrTaken_iff, threshold_eq]
    omega

/-! ### What of an address matters (20_memory.md section 2) -/

/-- Settles O22: below bit 62 both shifts bring down the same bits of the address. -/
theorem addressSignNeverMatters : Obligations.AddressSignNeverMatters := by
  intro a w hw
  rw [pcIndex_eq]
  apply Nat.eq_of_testBit_eq
  intro j
  rw [Nat.testBit_mod_two_pow, Nat.testBit_mod_two_pow]
  by_cases hj : j < w
  · have hsign : (a.sshiftRight 2).getLsbD j = a.getLsbD (2 + j) := by
      rw [BitVec.getLsbD_sshiftRight, if_pos (by omega)]
      simp [show ¬ 64 ≤ j by omega]
    have hlogical : (a.toNat / 4).testBit j = a.getLsbD (2 + j) := by
      rw [show 4 = 2 ^ 2 from rfl, Nat.testBit_div_two_pow, Nat.add_comm, BitVec.getLsbD]
    rw [hlogical, ← hsign, BitVec.getLsbD]
  · simp [hj]

/-- PU.GSHARE reads its address through the table's index alone. -/
theorem State.puGshare_congr {s : State} {t : Bool} {a a' : Address} (h : s.indexT a = s.indexT a') :
    s.puGshare t a = s.puGshare t a' := by
  rw [State.puGshare_eq, State.puGshare_eq, h]

/-- PU.HYBRID reads its address through its three indices alone. -/
theorem State.puHybrid_congr {s : State} {t : Bool} {a a' : Address} (hC : s.indexC a = s.indexC a')
    (hTG : s.indexTG a = s.indexTG a') (hTB : s.indexTB a = s.indexTB a') : s.puHybrid t a = s.puHybrid t a' := by
  have huse : s.useG a = s.useG a' := by rw [State.useG, State.useG, hC]
  have hpg : s.predG a = s.predG a' := by rw [State.predG, State.predG, hTG]
  have hpb : s.predB a = s.predB a' := by rw [State.predB, State.predB, hTB]
  rw [State.puHybrid_eq, State.puHybrid_eq, huse, hpg, hpb, hC, hTG, hTB]

/-- Commands that are checked alike and have one effect are one command to the instance. -/
theorem exec_congr {i i' : Instr} {s : State} (hcheck : check s.cfg i = check s.cfg i')
    (heffect : effectOf i s = effectOf i' s) : exec i s = exec i' s := by
  simp only [exec_eq_perform, State.perform, State.whenReady, hcheck, heffect]

/-- Settles O24: the check of a PU command does not read the address, and its effect reads the index bits. -/
theorem aliasedAddressesActAlike : Obligations.AliasedAddressesActAlike := by
  refine fun s t a a' => ⟨fun hT => exec_congr rfl (State.puGshare_congr ?_),
    fun hC hTG hTB => exec_congr rfl (State.puHybrid_congr ?_ ?_ ?_)⟩
  · rw [State.indexT, State.indexT, gshareIndex_eq, gshareIndex_eq, hT]
  · rw [State.indexC_eq, State.indexC_eq, hC]
  · rw [State.indexTG, State.indexTG, gshareIndex_eq, gshareIndex_eq, hTG]
  · rw [State.indexTB_eq, State.indexTB_eq, hTB]

/-! ### The chooser row by row (43_hybrid.md R165) -/

/-- Settles O31: C[ci] is a counter of its width, so the increment is a clamp at its ceiling. -/
theorem chooserUpdateTable : Obligations.ChooserUpdateTable := by
  intro s s' t a h hk hexec ci c
  rw [exec_puHybrid_of_ready t a h.1 hk] at hexec
  obtain rfl := Host.Outcome.next.inj hexec
  have hread : (s.puHybrid t a).readC ci = chooserUpdate s.cfg.cbC c (s.predG a) (s.predB a) t := by
    rw [State.puHybrid_readC, if_pos rfl]
  have hinc : ctrInc s.cfg.cbC c = min (c + 1) (2 ^ s.cfg.cbC - 1) :=
    ctrInc_eq_min (Nat.le_sub_one_of_lt (h.readC_lt hk ci))
  rw [hread, ← hinc, ← ctrDec_eq_sub_one]
  refine ⟨fun hagree => chooserUpdate_of_agree hagree _ _ _, ?_, ?_, ?_, ?_⟩ <;>
    rintro hg hb rfl <;> rw [hg, hb] <;> rfl

/-! ### The commands of a record and of DUMP (30_encoding.md R97) -/

section
variable {c : Config}

theorem branchCommand_smith (hk : c.kind = .smith) (a : Address) (t : Bool) :
    branchCommand c a t = .puSmith 0 false t a := by
  simp only [branchCommand, hk]

theorem branchCommand_table (hk : c.kind = .gshare ∨ c.kind = .bimodal) (a : Address) (t : Bool) :
    branchCommand c a t = .puGshare 0 false t a := by
  rcases hk with hk | hk <;> simp only [branchCommand, hk]

theorem branchCommand_hybrid (hk : c.kind = .hybrid) (a : Address) (t : Bool) :
    branchCommand c a t = .puHybrid 0 false t a := by
  simp only [branchCommand, hk]

theorem dumpCommands_smith (hk : c.kind = .smith) : dumpCommands c = readAll .smithCtr 1 := by
  simp only [dumpCommands, hk]

theorem dumpCommands_table (hk : c.kind = .gshare ∨ c.kind = .bimodal) :
    dumpCommands c = readAll .gshareTable (pow2 c.m) := by
  rcases hk with hk | hk <;> simp only [dumpCommands, hk]

theorem dumpCommands_hybrid (hk : c.kind = .hybrid) : dumpCommands c =
    readAll .chooser (pow2 c.k) ++ readAll .hybGshareTable (pow2 c.m1) ++ readAll .hybBimodalTable (pow2 c.m2) := by
  simp only [dumpCommands, hk]

end

/-! ### Runs of a trace on a HYBRID instance (43_hybrid.md section 4) -/

/-- The first record of a trace presented is taken by the next step. -/
theorem step_presentTrace_cons (s : State) (r : Record) (rs : List Record) :
    step (s.presentTrace (r :: rs)) = exec (branchCommand s.cfg r.address r.taken) (s.presentTrace rs) :=
  step_record rfl

/-- The requests are not read by PU.HYBRID and stay as they are. -/
theorem State.puHybrid_presentTrace (s : State) (rs : List Record) (t : Bool) (a : Address) :
    (s.presentTrace rs).puHybrid t a = (s.puHybrid t a).presentTrace rs := by
  rw [State.puHybrid_eq, State.puHybrid_eq]
  rfl

theorem step_presentTrace_hybrid {s : State} (hr : s.Ready) (hk : s.cfg.kind = .hybrid) (r : Record)
    (rs : List Record) :
    step (s.presentTrace (r :: rs)) = .next ((s.puHybrid r.taken r.address).presentTrace rs) := by
  rw [step_presentTrace_cons, branchCommand_hybrid hk, ← State.puHybrid_presentTrace]
  exact exec_puHybrid_of_ready (s := s.presentTrace rs) _ _ hr hk

/-- A record on which Gshare alone is right moves its chooser entry up by one, to the ceiling at most; a record at
another index leaves the entry. -/
theorem State.readC_puHybrid_of_gshare_right {s : State} (h : s.Inv) (hk : s.cfg.kind = .hybrid) {r : Record}
    {i : Nat} (hright : s.indexC r.address = i → s.predG r.address = r.taken ∧ s.predB r.address = !r.taken) :
    (s.puHybrid r.taken r.address).readC i =
      if s.indexC r.address = i then min (s.readC i + 1) (ceiling s.cfg.cbC) else s.readC i := by
  rw [State.puHybrid_readC]
  split
  next hi =>
    subst hi
    obtain ⟨hg, hb⟩ := hright rfl
    have hne : s.predG r.address ≠ s.predB r.address := by simp [hg, hb]
    rw [if_pos rfl, chooserUpdate_of_disagree hne, if_pos hg]
    exact ctrInc_eq_min (Nat.le_sub_one_of_lt (h.readC_lt hk _))
  next hi => rw [if_neg (Ne.symm hi)]

/-- The record is at chooser index `i` (R162). -/
def Record.atChooser (c : Config) (i : Nat) (r : Record) : Bool := r.address.toNat / 4 % 2 ^ c.k == i

theorem Record.atChooser_iff (s : State) (i : Nat) (r : Record) :
    r.atChooser s.cfg i = true ↔ s.indexC r.address = i := by
  rw [State.indexC_eq, Record.atChooser, beq_iff_eq]

/-- On each record of the trace at chooser index `i` Gshare is right and Bimodal wrong, in the state in which that
record is performed. -/
def GshareRightAt (s : State) (rs : List Record) (i : Nat) : Prop :=
  ∀ (k : Nat) (t : State) (r : Record), Host.Core.run Sys2Proof.core k (s.presentTrace rs) = .next t →
    rs[k]? = some r → r.atChooser s.cfg i = true → t.predG r.address = r.taken ∧ t.predB r.address = !r.taken

theorem GshareRightAt.tail {s : State} {r : Record} {rs : List Record} {i : Nat} (h : GshareRightAt s (r :: rs) i)
    (hr : s.Ready) (hk : s.cfg.kind = .hybrid) : GshareRightAt (s.puHybrid r.taken r.address) rs i := by
  intro k t r' hrun hget hat
  rw [State.puHybrid_cfg] at hat
  exact h (k + 1) t r' ((run_succ_of_step (step_presentTrace_hybrid hr hk r rs) k).trans hrun) hget hat

/-- The entry rises by the number of the records at its index, by induction on the trace. -/
theorem run_readC_of_gshareRightAt {i : Nat} (rs : List Record) : ∀ s : State, s.Inv → s.cfg.kind = .hybrid →
    GshareRightAt s rs i → ∃ s' : State, Host.Core.run Sys2Proof.core rs.length (s.presentTrace rs) = .next s' ∧
      s'.cfg = s.cfg ∧
      s'.readC i = min (s.readC i + (rs.filter (Record.atChooser s.cfg i)).length) (ceiling s.cfg.cbC) := by
  induction rs with
  | nil =>
    intro s h hk _
    exact ⟨_, rfl, rfl, (Nat.min_eq_left (Nat.le_sub_one_of_lt (h.readC_lt hk i))).symm⟩
  | cons r rs ih =>
    intro s h hk hright
    have hhead : s.indexC r.address = i → s.predG r.address = r.taken ∧ s.predB r.address = !r.taken :=
      fun hi => hright 0 (s.presentTrace (r :: rs)) r rfl rfl ((r.atChooser_iff s i).2 hi)
    have hread := State.readC_puHybrid_of_gshare_right h hk hhead
    obtain ⟨s', hrun, hcfg, hC⟩ := ih _ (h.puHybrid r.taken r.address hk) (by rwa [State.puHybrid_cfg])
      (hright.tail h.1 hk)
    rw [State.puHybrid_cfg] at hcfg hC
    refine ⟨s', (run_succ_of_step (step_presentTrace_hybrid h.1 hk r rs) _).trans hrun, hcfg, ?_⟩
    simp only [hC, hread, List.filter_cons, Record.atChooser_iff]
    split
    · rw [List.length_cons]
      omega
    · rfl

/-- Settles O32: the entry after the run is its value plus the count, clamped at the ceiling, which the threshold
is not above. -/
theorem chooserBias : Obligations.ChooserBias := by
  intro s rs i h hk at_i hright count
  obtain ⟨s', hrun, hcfg, hC⟩ := run_readC_of_gshareRightAt rs s h hk hright
  refine ⟨s', hrun, hC, fun hlow a ha => ?_⟩
  have hindex : s'.indexC a = i := by rw [State.indexC_eq, hcfg, ha]
  have hceil := threshold_le_ceiling (Config.hybridWidths h.1.1 hk).one_le_cbC
  rw [State.useG, hindex, hcfg, ctrTaken_iff, hC]
  change _ ↔ threshold s.cfg.cbC - s.readC i ≤ (rs.filter (Record.atChooser s.cfg i)).length
  omega

end Sys2Proof.Machine
end

section
namespace Sys2Proof.Machine

/-! ### Runs of a trace on a GSHARE instance (41_gshare.md section 4) -/

/-- The requests are not read by PU.GSHARE and stay as they are. -/
theorem State.puGshare_presentTrace (s : State) (rs : List Record) (t : Bool) (a : Address) :
    (s.presentTrace rs).puGshare t a = (s.puGshare t a).presentTrace rs := rfl

theorem step_presentTrace_gshare {s : State} (hr : s.Ready) (hk : s.cfg.kind = .gshare) (r : Record)
    (rs : List Record) :
    step (s.presentTrace (r :: rs)) = .next ((s.puGshare r.taken r.address).presentTrace rs) := by
  rw [step_presentTrace_cons, branchCommand_table (.inl hk), ← State.puGshare_presentTrace]
  exact exec_puGshare_of_ready (s := s.presentTrace rs) _ _ hr (.inl hk)

/-- A history register of width `n` after the outcomes of a trace (R134, R136). -/
def historyAfter (n g : Nat) (rs : List Record) : Nat := rs.foldl (fun g r => ghrUpdate g n r.taken) g

theorem historyAfter_concat (n g : Nat) (rs : List Record) (r : Record) :
    historyAfter n g (rs ++ [r]) = ghrUpdate (historyAfter n g rs) n r.taken := by
  rw [historyAfter, List.foldl_append]
  rfl

/-- A run of a trace takes the history through its outcomes, whatever the addresses. -/
theorem run_presentTrace_gshare (rs : List Record) : ∀ s : State, s.Ready → s.cfg.kind = .gshare →
    ∃ s' : State, Host.Core.run Sys2Proof.core rs.length (s.presentTrace rs) = .next s' ∧
      s'.ghrG = historyAfter s.cfg.n s.ghrG rs := by
  induction rs with
  | nil => exact fun s _ _ => ⟨_, rfl, rfl⟩
  | cons r rs ih =>
    intro s hr hk
    obtain ⟨s', hrun, hG⟩ := ih (s.puGshare r.taken r.address) hr hk
    exact ⟨s', (run_succ_of_step (step_presentTrace_gshare hr hk r rs) _).trans hrun, hG⟩

section
variable {n g : Nat} (hg : g < pow2 n)
include hg

theorem historyAfter_lt (rs : List Record) : historyAfter n g rs < pow2 n := by
  induction rs using List.reverseRecOn with
  | nil => exact hg
  | append_singleton rs r ih =>
    rw [historyAfter_concat]
    exact ghrUpdate_lt _ _ _ ih

/-- Bit `n - 1 - j` is the outcome `j` records back; where the trace is shorter it is a bit of the first history,
moved down by one place a record. -/
theorem testBit_historyAfter (rs : List Record) : ∀ j < n, (historyAfter n g rs).testBit (n - 1 - j) =
    ((rs.reverse[j]?).map Record.taken).getD (g.testBit (n - 1 - j + rs.length)) := by
  induction rs using List.reverseRecOn with
  | nil => exact fun j _ => rfl
  | append_singleton rs r ih =>
    intro j hj
    obtain ⟨-, hbits, -⟩ := historyShiftsOutcomeIn _ n r.taken (historyAfter_lt hg rs)
    obtain ⟨hnew, hold⟩ := hbits (Nat.zero_lt_of_lt hj)
    rw [historyAfter_concat, List.reverse_concat]
    cases j with
    | zero => exact hnew
    | succ j =>
      have hplace : n - 1 - (j + 1) + 1 = n - 1 - j := by omega
      have hlen : n - 1 - (j + 1) + (rs ++ [r]).length = n - 1 - j + rs.length := by
        rw [List.length_append, List.length_singleton]
        omega
      rw [hold _ (by omega), hplace, ih j (by omega), hlen, List.getElem?_cons_succ]

theorem testBit_historyAfter_of_le (rs : List Record) {i : Nat} (hi : n ≤ i) :
    (historyAfter n g rs).testBit i = false :=
  Nat.testBit_lt_two_pow (Nat.lt_of_lt_of_le (historyAfter_lt hg rs) (Nat.pow_le_pow_right (by decide) hi))

/-- Once `n` outcomes have entered, every bit is one of theirs. -/
theorem testBit_historyAfter_of_all {rs : List Record} (hlen : rs.length = n) {b : Bool}
    (hall : ∀ r ∈ rs, r.taken = b) {i : Nat} (hi : i < n) : (historyAfter n g rs).testBit i = b := by
  have hbit := testBit_historyAfter hg rs (n - 1 - i) (by omega)
  have hplace : n - 1 - (n - 1 - i) = i := by omega
  have hget : n - 1 - i < rs.reverse.length := by
    rw [List.length_reverse]
    omega
  rw [hplace, List.getElem?_eq_getElem hget, Option.map_some, Option.getD_some] at hbit
  rw [hbit]
  exact hall _ (List.mem_reverse.1 (List.getElem_mem hget))

theorem historyAfter_all_taken {rs : List Record} (hlen : rs.length = n) (hall : ∀ r ∈ rs, r.taken = true) :
    historyAfter n g rs = 2 ^ n - 1 := by
  apply Nat.eq_of_testBit_eq
  intro i
  rw [Nat.testBit_two_pow_sub_one]
  by_cases hi : i < n
  · rw [testBit_historyAfter_of_all hg hlen hall hi, decide_eq_true hi]
  · rw [testBit_historyAfter_of_le hg rs (Nat.le_of_not_lt hi), decide_eq_false hi]

theorem historyAfter_all_not_taken {rs : List Record} (hlen : rs.length = n)
    (hall : ∀ r ∈ rs, r.taken = false) : historyAfter n g rs = 0 := by
  apply Nat.eq_of_testBit_eq
  intro i
  rw [Nat.zero_testBit]
  by_cases hi : i < n
  · exact testBit_historyAfter_of_all hg hlen hall hi
  · exact testBit_historyAfter_of_le hg rs (Nat.le_of_not_lt hi)

end

/-- Settles O54: from reset the first history is 0, so the bits no outcome has reached are 0. -/
theorem historyHoldsLastOutcomes : Obligations.HistoryHoldsLastOutcomes := by
  intro c rs hl hk
  obtain ⟨s', hrun, hG⟩ := run_presentTrace_gshare rs (State.resetOf c) ⟨hl, rfl⟩ hk
  refine ⟨s', hrun, fun j hj => ?_⟩
  rw [hG, State.resetOf_ghrG, State.resetOf_cfg, testBit_historyAfter (pow2_pos _) rs j hj, Nat.zero_testBit]

/-- Settles O55: a trace of N records leaves no bit of the history before it. -/
theorem historyFillsAndClears : Obligations.HistoryFillsAndClears := by
  intro s rs h hk hlen
  obtain ⟨s', hrun, hG⟩ := run_presentTrace_gshare rs s h.1 hk
  refine ⟨s', hrun, fun hall _ => ?_, fun hall => ?_⟩
  · exact hG.trans (historyAfter_all_taken (h.ghrG_lt (.inl hk)) hlen hall)
  · exact hG.trans (historyAfter_all_not_taken (h.ghrG_lt (.inl hk)) hlen hall)

/-! ### One history for HYBRID and GSHARE (43_hybrid.md R168) -/

/-- What a HYBRID instance and a GSHARE instance of one history width have in common after each record of a trace:
the history. -/
structure HistoryTwin (sh sg : State) : Prop where
  ready : sh.Ready
  kind : sh.cfg.kind = .hybrid
  ready_twin : sg.Ready
  kind_twin : sg.cfg.kind = .gshare
  width : sh.cfg.n = sg.cfg.n
  history : sh.ghrGG = sg.ghrG

/-- Each takes the record's outcome into its history, whichever component HYBRID selects. -/
theorem HistoryTwin.puHybrid_puGshare {sh sg : State} (h : HistoryTwin sh sg) (t : Bool) (a : Address) :
    HistoryTwin (sh.puHybrid t a) (sg.puGshare t a) where
  ready := by simpa only [State.Ready, State.puHybrid_cfg, State.puHybrid_resetDone] using h.ready
  kind := by rw [State.puHybrid_cfg, h.kind]
  ready_twin := h.ready_twin
  kind_twin := h.kind_twin
  width := by rw [State.puHybrid_cfg, h.width, State.puGshare_cfg]
  history := by rw [State.puHybrid_ghrGG, State.puGshare_ghrG, h.history, h.width]

/-- Two such instances with the same records still to come. -/
def HistoryTwinsOnTrace (s t : State) : Prop :=
  ∃ (sh sg : State) (rs : List Record), s = sh.presentTrace rs ∧ t = sg.presentTrace rs ∧ HistoryTwin sh sg

/-- A pair of steps keeps the relation: both idle at the end of the trace, or both take the same record. -/
theorem HistoryTwinsOnTrace.step {s t : State} (h : HistoryTwinsOnTrace s t) :
    ∃ s' t', Machine.step s = .next s' ∧ Machine.step t = .next t' ∧ HistoryTwinsOnTrace s' t' := by
  obtain ⟨sh, sg, rs, rfl, rfl, htwin⟩ := h
  cases rs with
  | nil => exact ⟨_, _, step_idle rfl, step_idle rfl, sh, sg, [], rfl, rfl, htwin⟩
  | cons r rs =>
    exact ⟨_, _, step_presentTrace_hybrid htwin.ready htwin.kind r rs,
      step_presentTrace_gshare htwin.ready_twin htwin.kind_twin r rs,
      _, _, rs, rfl, rfl, htwin.puHybrid_puGshare r.taken r.address⟩

/-- The GSHARE instance (M1, N, CB_T) of a legal HYBRID configuration is legal (R203). -/
theorem legal_gshare_of_hybrid {k n m1 m2 cbT cbC ci maxC maxI : Nat}
    (hl : Config.legal ⟨.hybrid k n m1 m2 cbT cbC ci, maxC, maxI⟩ = true) :
    Config.legal ⟨.gshare m1 n cbT, maxC, maxI⟩ = true := by
  obtain ⟨hbounds, -, hm1, -, hn, hone, hle, -⟩ := (Config.legal_hybrid_iff rfl).1 hl
  exact (Config.legal_gshare_iff rfl).2 ⟨hbounds, hm1, hn, hone, hle⟩

/-- Settles O58: both histories are 0 at reset, and every pair of steps keeps them equal. -/
theorem hybridHistoryIsGshareHistory : Obligations.HybridHistoryIsGshareHistory := by
  intro k n m1 m2 cbT cbC ci maxC maxI rs j hybrid gshare hl
  have hreset : HistoryTwin (State.resetOf hybrid) (State.resetOf gshare) :=
    ⟨⟨hl, rfl⟩, rfl, ⟨legal_gshare_of_hybrid hl, rfl⟩, rfl, rfl, rfl⟩
  obtain ⟨_, _, hrunh, hrung, sh, sg, rs', rfl, rfl, htwin⟩ :=
    run_lockstep (fun _ _ => HistoryTwinsOnTrace.step) j _ _ ⟨_, _, rs, rfl, rfl, hreset⟩
  exact ⟨_, _, hrunh, hrung, htwin.history⟩

/-! ### BIMODAL as GSHARE without history (41_gshare.md R130) -/

section
variable (m cbT maxC maxI : Nat)

/-- The BIMODAL configuration M. -/
def bimodalConfig : Config := ⟨.bimodal m cbT, maxC, maxI⟩

/-- The GSHARE configuration (M, 0) under the same implementation bounds. -/
def noHistoryConfig : Config := ⟨.gshare m 0 cbT, maxC, maxI⟩

/-- Every row is checked alike: both kinds have T and G, of the same sizes, and take PU.GSHARE. -/
theorem check_noHistoryConfig (i : Instr) :
    check (noHistoryConfig m cbT maxC maxI) i = check (bimodalConfig m cbT maxC maxI) i := by
  cases i with
  | rd sel r t a => cases sel <;> rfl
  | _ => rfl

variable {m cbT maxC maxI}

theorem legal_noHistoryConfig (hl : (bimodalConfig m cbT maxC maxI).legal = true) :
    (noHistoryConfig m cbT maxC maxI).legal = true := by
  obtain ⟨hbounds, hm, hb⟩ := (Config.legal_bimodal_iff rfl).1 hl
  exact (Config.legal_gshare_iff rfl).2 ⟨hbounds, hm, Nat.zero_le m, hb⟩

/-- An accepted command makes the same of the same elements on both. -/
theorem effectOf_noHistoryConfig {i : Instr} (hc : check (bimodalConfig m cbT maxC maxI) i = none)
    (p : InstanceState) : (effectOf i (p.under (noHistoryConfig m cbT maxC maxI))).instanceState =
      (effectOf i (p.under (bimodalConfig m cbT maxC maxI))).instanceState := by
  cases i with
  | nop | puGshare => rfl
  | rd sel r t a => cases sel <;> rfl
  | puSmith => cases ((check_puSmith_eq_none ..).1 hc).1
  | puHybrid => cases ((check_puHybrid_eq_none ..).1 hc).1
  | reservedOp101 | reservedOp110 | reservedOp111 => cases hc

/-- Two instances with the same elements and channels, both reset. -/
def BimodalTwins (m cbT maxC maxI : Nat) (sb sg : State) : Prop :=
  ∃ p : InstanceState, p.resetDone = true ∧ sb = p.under (bimodalConfig m cbT maxC maxI) ∧
    sg = p.under (noHistoryConfig m cbT maxC maxI)

theorem BimodalTwins.exec {sb sg : State} (hl : (bimodalConfig m cbT maxC maxI).legal = true)
    (h : BimodalTwins m cbT maxC maxI sb sg) (i : Instr) :
    ∃ sb' sg', Machine.exec i sb = .next sb' ∧ Machine.exec i sg = .next sg' ∧
      BimodalTwins m cbT maxC maxI sb' sg' := by
  obtain ⟨p, hp, rfl, rfl⟩ := h
  have hb := exec_of_ready (s := p.under (bimodalConfig m cbT maxC maxI)) ⟨hl, hp⟩ i
  have hg := exec_of_ready (s := p.under (noHistoryConfig m cbT maxC maxI)) ⟨legal_noHistoryConfig hl, hp⟩ i
  rw [InstanceState.under_cfg] at hb hg
  rw [check_noHistoryConfig] at hg
  refine ⟨_, _, hb, hg, ?_⟩
  cases hc : check (bimodalConfig m cbT maxC maxI) i with
  | some e => exact ⟨{ p with responses := p.responses ++ [errorWord e] }, hp, rfl, rfl⟩
  | none =>
    obtain ⟨hcfgb, hdone, -⟩ := effectOf_frame i (p.under (bimodalConfig m cbT maxC maxI))
    obtain ⟨hcfgg, -⟩ := effectOf_frame i (p.under (noHistoryConfig m cbT maxC maxI))
    refine ⟨(effectOf i (p.under (bimodalConfig m cbT maxC maxI))).instanceState, hdone.trans hp,
      (under_instanceState_of_cfg hcfgb).symm, ?_⟩
    rw [← effectOf_noHistoryConfig hc]
    exact (under_instanceState_of_cfg hcfgg).symm

theorem BimodalTwins.step {sb sg : State} (hl : (bimodalConfig m cbT maxC maxI).legal = true)
    (h : BimodalTwins m cbT maxC maxI sb sg) :
    ∃ sb' sg', Machine.step sb = .next sb' ∧ Machine.step sg = .next sg' ∧
      BimodalTwins m cbT maxC maxI sb' sg' := by
  obtain ⟨p, hp, rfl, rfl⟩ := h
  match hq : p.requests with
  | [] => exact ⟨_, _, step_idle hq, step_idle hq, p, hp, rfl, rfl⟩
  | .reset :: rest =>
    exact ⟨_, _, step_reset_of_legal hl hq, step_reset_of_legal (legal_noHistoryConfig hl) hq,
      { (State.resetOf (bimodalConfig m cbT maxC maxI)).instanceState with
        requests := rest, responses := p.responses }, rfl, rfl, rfl⟩
  | .command w :: rest =>
    rw [step_command hq, step_command hq]
    exact BimodalTwins.exec hl ⟨{ p with requests := rest }, hp, rfl, rfl⟩ (decode w)

end

/-- Settles O56: the reset states are twins, and every pair of steps keeps them so. -/
theorem bimodalIsGshareWithoutHistory : Obligations.BimodalIsGshareWithoutHistory := by
  intro m cbT maxC maxI ws k b g hl
  have hreset : BimodalTwins m cbT maxC maxI ((State.resetOf b).present ws) ((State.resetOf g).present ws) :=
    ⟨((State.resetOf b).present ws).instanceState, rfl, rfl, rfl⟩
  obtain ⟨_, _, hrunb, hrung, p, -, rfl, rfl⟩ := run_lockstep (fun _ _ => BimodalTwins.step hl) k _ _ hreset
  exact ⟨_, _, hrunb, hrung, rfl, rfl, rfl, rfl⟩

/-! ### DUMP (44_interface_ops.md R185) -/

/-- On the instance of `s`, whatever its channels hold, the command is answered by `w` and changes nothing else. -/
def AnsweredBy (s : State) (i : Instr) (w : ResponseWord) : Prop :=
  ∀ (qs : List Request) (rs : List ResponseWord), exec i { s with requests := qs, responses := rs } =
    .next { s with requests := qs, responses := rs ++ [w] }

/-- A run of such commands answers each in order and leaves the state as it was. -/
theorem run_of_answeredBy {s : State} {is : List Instr} {ws : List ResponseWord}
    (h : List.Forall₂ (AnsweredBy s) is ws) : ∀ rs : List ResponseWord,
    Host.Core.run Sys2Proof.core is.length
        { s with requests := (is.map encode).map .command, responses := rs } =
      .next { s with requests := [], responses := rs ++ ws } := by
  induction h with
  | nil =>
    intro rs
    rw [List.append_nil]
    rfl
  | @cons i w is ws hi _ ih =>
    intro rs
    have hstep := step_command (s := { s with requests := ((i :: is).map encode).map .command, responses := rs }) rfl
    rw [decode_encode, hi] at hstep
    rw [List.length_cons, run_succ_of_step hstep, ih, List.append_assoc, List.singleton_append]

/-- Every index of an element's table is a legal index of RD, and its number fits the A field. -/
theorem readAll_answeredBy {s : State} (hr : s.Ready) {x : Sel} {f : Nat → Nat}
    (hf : ∀ i, s.readElement x i = some (f i)) :
    List.Forall₂ (AnsweredBy s) (readAll x (x.size s.cfg))
      ((List.range (x.size s.cfg)).map fun i => 0#2 ++ BitVec.ofNat 64 (f i)) := by
  have hp : x.present s.cfg.kind = true := by rw [← s.isSome_readElement x 0, hf, Option.isSome_some]
  have hsize : x.size s.cfg ≤ 2 ^ 62 := (Sel.size_le_maxSize hr.1 hp).trans (by unfold Sel.maxSize; split <;> decide)
  rw [readAll, List.forall₂_map_left_iff, List.forall₂_map_right_iff, List.forall₂_same]
  intro i hi qs rs
  rw [List.mem_range] at hi
  have hindex : (BitVec.ofNat 64 i).toNat = i := by
    rw [BitVec.toNat_ofNat]
    exact Nat.mod_eq_of_lt (by omega)
  exact exec_rd_of_readElement (s := { s with requests := qs, responses := rs }) hr
    (by rw [hindex]; exact hf i) (by rw [hindex]; exact hi)

/-- Settles O59: DUMP is the RD sequence of the kind's elements, each from index 0 on. -/
theorem dumpReadsEveryValueInOrder : Obligations.DumpReadsEveryValueInOrder := by
  intro s hr count start answers after
  have hrun {ws : List ResponseWord} (h : List.Forall₂ (AnsweredBy s) (dumpCommands s.cfg) ws) :
      Host.Core.run Sys2Proof.core count start = after ws := run_of_answeredBy h s.responses
  refine ⟨fun hk => hrun ?smith, fun hk => hrun ?table, fun hk => hrun ?hybrid⟩
  case smith =>
    rw [dumpCommands_smith hk]
    exact readAll_answeredBy hr fun i => State.readElement_smithCtr hk
  case table =>
    rw [dumpCommands_table hk]
    exact readAll_answeredBy hr fun i => State.readElement_gshareTable hk
  case hybrid =>
    rw [dumpCommands_hybrid hk]
    exact List.rel_append (List.rel_append (readAll_answeredBy hr fun i => State.readElement_chooser hk)
      (readAll_answeredBy hr fun i => State.readElement_hybGshareTable hk))
      (readAll_answeredBy hr fun i => State.readElement_hybBimodalTable hk)

end Sys2Proof.Machine
end

section
namespace Sys2Proof.Machine

/-! ### Digits and numbers by value (30_encoding.md R96, R100; 93_implementation_defined.md G3) -/

/-- The ASCII characters read as digits are those of G3's two rows. -/
theorem isDigit_of_hexValue_ascii : ∀ k < 128, ∀ d ∈ hexValue (Char.ofNat k), d < 16 ∧
    ("0123456789abcdef".toList[d]? = some (Char.ofNat k) ∨
      "0123456789ABCDEF".toList[d]? = some (Char.ofNat k)) := by decide

theorem toNat_lt_of_hexValue {ch : Char} {d : Nat} (h : hexValue ch = some d) : ch.toNat < 128 := by
  unfold hexValue at h
  by_contra hge
  rw [if_neg (by omega), if_neg (by omega), if_neg (by omega)] at h
  cases h

theorem hexValue_eq_some_iff (ch : Char) (d : Nat) : hexValue ch = some d ↔ isDigit 16 ch d := by
  constructor
  · intro h
    have hascii := isDigit_of_hexValue_ascii ch.toNat (toNat_lt_of_hexValue h) d
    rw [Char.ofNat_toNat] at hascii
    exact hascii h
  · rintro ⟨hd, h⟩
    interval_cases d <;> rcases h with h | h <;> obtain rfl := Option.some.inj h <;> rfl

theorem decValue_eq_some_iff (ch : Char) (d : Nat) : decValue ch = some d ↔ isDigit 10 ch d := by
  have hdec : decValue ch = some d ↔ hexValue ch = some d ∧ d < 10 := by
    unfold decValue hexValue
    split_ifs <;> simp <;> omega
  rw [hdec, hexValue_eq_some_iff, isDigit, isDigit]
  constructor
  · rintro ⟨⟨-, h⟩, hd⟩
    exact ⟨hd, h⟩
  · rintro ⟨hd, h⟩
    exact ⟨⟨by omega, h⟩, hd⟩

theorem readDigits_cons {base : Nat} {digit : Char → Option Nat} {acc d : Nat} {ch : Char} {cs : Text}
    (h : digit ch = some d) :
    readDigits base digit acc (ch :: cs) = readDigits base digit (base * acc + d) cs := by
  simp only [readDigits, h]

/-- Reading goes on from the value of the digits read. -/
theorem readDigits_append (base : Nat) (digit : Char → Option Nat) (cs cs' : Text) : ∀ acc : Nat,
    readDigits base digit acc (cs ++ cs') =
      (readDigits base digit acc cs).bind fun v => readDigits base digit v cs' := by
  induction cs with
  | nil => exact fun acc => rfl
  | cons ch cs ih =>
    intro acc
    cases hd : digit ch with
    | none => simp only [List.cons_append, readDigits, hd, Option.bind_none]
    | some d => rw [List.cons_append, readDigits_cons hd, readDigits_cons hd, ih]

/-- A run of digits is read as the value of its digits, and nothing else is read. -/
theorem readDigits_eq_some_iff {base : Nat} {digit : Char → Option Nat}
    (hdigit : ∀ ch d, digit ch = some d ↔ isDigit base ch d) (cs : Text) : ∀ acc v : Nat,
    readDigits base digit acc cs = some v ↔
      ∃ ds : List Nat, List.Forall₂ (isDigit base) cs ds ∧ v = ds.foldl (fun acc d => base * acc + d) acc := by
  induction cs with
  | nil => simp [readDigits, eq_comm]
  | cons ch cs ih =>
    intro acc v
    constructor
    · intro h
      cases hd : digit ch with
      | none => simp [readDigits, hd] at h
      | some d =>
        rw [readDigits_cons hd, ih] at h
        obtain ⟨ds, hds, hv⟩ := h
        exact ⟨d :: ds, .cons ((hdigit ch d).1 hd) hds, hv⟩
    · rintro ⟨_, hds, hv⟩
      cases hds with
      | @cons _ d _ ds hd hds =>
        rw [readDigits_cons ((hdigit ch d).2 hd), ih]
        exact ⟨ds, hds, hv⟩

theorem readHex_eq_some_iff (cs : Text) (v : Nat) : readHex cs = some v ↔ isNumber 16 cs v := by
  rw [readHex, isNumber, ← readDigits_eq_some_iff hexValue_eq_some_iff]
  split <;> simp_all

theorem readDec_eq_some_iff (cs : Text) (v : Nat) : readDec cs = some v ↔ isNumber 10 cs v := by
  rw [readDec, isNumber, ← readDigits_eq_some_iff decValue_eq_some_iff]
  split <;> simp_all

theorem exists_digit_of_isNumber {base : Nat} {cs : Text} {v : Nat} (h : isNumber base cs v) :
    ∀ ch ∈ cs, ∃ d, isDigit base ch d := by
  obtain ⟨-, ds, hds, -⟩ := h
  induction hds with
  | nil => simp
  | cons hd _ ih =>
    intro ch hch
    rcases List.mem_cons.1 hch with rfl | hch
    · exact ⟨_, hd⟩
    · exact ih ch hch

/-- The texts that are numbers of an assembler line (R96). -/
def isAssemblerNumber (cs : Text) (v : Nat) : Prop :=
  (∃ digits, cs = '0' :: 'x' :: digits ∧ isNumber 16 digits v) ∨ isNumber 10 cs v

theorem not_mem_of_isNumber {base : Nat} {cs : Text} {v : Nat} {ch : Char} (hch : hexValue ch = none)
    (hbase : base ≤ 16) (h : isNumber base cs v) : ch ∉ cs := by
  intro hmem
  obtain ⟨d, hd, hrows⟩ := exists_digit_of_isNumber h ch hmem
  have hvalue := (hexValue_eq_some_iff ch d).2 ⟨Nat.lt_of_lt_of_le hd hbase, hrows⟩
  rw [hch] at hvalue
  cases hvalue

/-- The two forms exclude each other: `x` is no decimal digit. -/
theorem numberValue_eq_some_iff (cs : Text) (v : Nat) : numberValue cs = some v ↔ isAssemblerNumber cs v := by
  unfold numberValue isAssemblerNumber
  split
  next digits =>
    have hdec : ¬ isNumber 10 ('0' :: 'x' :: digits) v := fun h =>
      not_mem_of_isNumber (ch := 'x') rfl (by decide) h (by simp)
    simp [readHex_eq_some_iff, hdec]
  next hnot0x =>
    rw [readDec_eq_some_iff]
    constructor
    · exact .inr
    · rintro (⟨digits, rfl, -⟩ | h)
      · exact absurd rfl (hnot0x digits)
      · exact h

theorem readNumber_eq_some_iff (cs : Text) (a : Address) :
    readNumber cs = some a ↔ ∃ v, v < 2 ^ 64 ∧ a = BitVec.ofNat 64 v ∧ isAssemblerNumber cs v := by
  simp only [← numberValue_eq_some_iff]
  unfold readNumber
  cases numberValue cs with
  | none => simp
  | some v => simp [eq_comm]

theorem readNumber_eq_none_of_le {cs : Text} {v : Nat} (hv : 2 ^ 64 ≤ v) (h : isAssemblerNumber cs v) :
    readNumber cs = none := by
  rw [← numberValue_eq_some_iff] at h
  simp only [readNumber, h, if_neg (Nat.not_lt.2 hv)]

/-- Settles O11: the reader's branches are the two forms of a number, and its bound is the 64 bits of an address. -/
theorem numbersReadByValue : Obligations.NumbersReadByValue :=
  ⟨readNumber_eq_some_iff,
    fun digits _ hv => ⟨fun h => readNumber_eq_none_of_le hv (.inl ⟨digits, rfl, h⟩),
      fun h => readNumber_eq_none_of_le hv (.inr h)⟩,
    readHex_eq_some_iff⟩

/-! ### Words read back (30_encoding.md R100) -/

/-- The `k` lowest digits of `v`, read on from `acc`. -/
theorem readDigits_hexDigits (k : Nat) : ∀ acc v : Nat,
    readDigits 16 hexValue acc (hexDigits k v) = some (16 ^ k * acc + v % 16 ^ k) := by
  induction k with
  | zero => simp [hexDigits, readDigits, Nat.mod_one]
  | succ k ih =>
    intro acc v
    rw [hexDigits, readDigits_append, ih, Option.bind_some,
      readDigits_cons (hexValue_hexChar _ (Nat.mod_lt v (by decide))), readDigits, Nat.pow_succ', Nat.mod_mul]
    congr 1
    ring

theorem readHex_hexDigits {k v : Nat} (hk : k ≠ 0) (hv : v < 16 ^ k) : readHex (hexDigits k v) = some v := by
  have hne : hexDigits k v ≠ [] := List.ne_nil_of_length_pos (by rw [length_hexDigits]; omega)
  rw [readHex, if_neg hne, readDigits_hexDigits, Nat.mul_zero, Nat.zero_add, Nat.mod_eq_of_lt hv]

theorem readCommandText_commandText (w : CommandWord) : readCommandText (commandText w) = some w := by
  have hhex : readHex (commandText w) = some w.toNat := readHex_hexDigits (by decide) w.isLt
  have hlen : (commandText w).length = 18 := length_hexDigits _ _
  rw [readCommandText, if_pos hlen, hhex, Option.map_some, BitVec.ofNat_toNat, BitVec.setWidth_eq]

/-- The top digit of a response has two bits to spare. -/
theorem readResponseText_responseText (w : ResponseWord) : readResponseText (responseText w) = some w := by
  have hhex : readHex (responseText w) = some w.toNat :=
    readHex_hexDigits (by decide) (Nat.lt_of_lt_of_le w.isLt (by decide))
  have hlen : (responseText w).length = 17 := length_hexDigits _ _
  rw [readResponseText, if_pos hlen, hhex]
  simp only [if_pos w.isLt, BitVec.ofNat_toNat, BitVec.setWidth_eq]

/-- Settles O9: the digits of a word are read back as its value, and the reader looks at the length first. -/
theorem hexTextReadsBack : Obligations.HexTextReadsBack := by
  refine ⟨readCommandText_commandText, readResponseText_responseText, fun cs w h => ?_, fun cs w h => ?_⟩
  · by_contra hlen
    rw [readCommandText, if_neg hlen] at h
    cases h
  · by_contra hlen
    rw [readResponseText, if_neg hlen] at h
    cases h

end Sys2Proof.Machine
end

section
namespace Sys2Proof.Machine

/-! ### Splitting a text at a character (30_encoding.md R96, R99) -/

/-- A text is split at its first `c`. -/
theorem splitAtChar_append_cons {c : Char} {before : Text} (h : c ∉ before) (after : Text) :
    splitAtChar c (before ++ c :: after) = some (before, after) := by
  induction before with
  | nil => simp [splitAtChar]
  | cons d before ih =>
    rw [List.mem_cons, not_or] at h
    obtain ⟨hd, hbefore⟩ := h
    simp [splitAtChar, Ne.symm hd, ih hbefore]

theorem of_splitAtChar_eq_some {c : Char} {cs : Text} : ∀ {before after : Text},
    splitAtChar c cs = some (before, after) → cs = before ++ c :: after ∧ c ∉ before := by
  induction cs with
  | nil => rintro _ _ ⟨⟩
  | cons d cs ih =>
    intro before after h
    unfold splitAtChar at h
    split at h
    next hd =>
      cases h
      simp [hd]
    next hd =>
      cases hs : splitAtChar c cs with
      | none => simp [hs] at h
      | some p =>
        obtain ⟨before', after'⟩ := p
        rw [hs] at h
        cases h
        obtain ⟨rfl, hbefore⟩ := ih hs
        exact ⟨rfl, by simp [Ne.symm hd, hbefore]⟩

theorem of_readOutcome_eq_some {cs : Text} {t : Bool} (h : readOutcome cs = some t) :
    cs = [if t then 't' else 'n'] := by
  unfold readOutcome at h
  split at h
  · cases h
    rfl
  · cases h
    rfl
  · cases h

theorem readOutcome_singleton (t : Bool) : readOutcome [if t then 't' else 'n'] = some t := by
  cases t <;> rfl

/-! ### The assembler's operands (30_encoding.md R96) -/

/-- A number has none of the characters that end one in a line. -/
theorem comma_not_mem_of_readNumber {x : Text} {a : Address} (h : readNumber x = some a) : ',' ∉ x := by
  obtain ⟨v, -, -, ⟨digits, rfl, hnum⟩ | hnum⟩ := (readNumber_eq_some_iff x a).1 h
  · have hdigits := not_mem_of_isNumber (ch := ',') rfl (by decide) hnum
    simp [hdigits]
  · exact not_mem_of_isNumber rfl (by decide) hnum

theorem readBranchOperands_line {x : Text} {a : Address} (h : readNumber x = some a) (t : Bool) :
    readBranchOperands (x ++ [',', ' ', if t then 't' else 'n']) = some (a, t) := by
  have hsplit := splitAtChar_append_cons (comma_not_mem_of_readNumber h) [' ', if t then 't' else 'n']
  simp only [readBranchOperands, hsplit, h, readOutcome_singleton]

theorem of_readBranchOperands_eq_some {ops : Text} {a : Address} {t : Bool}
    (h : readBranchOperands ops = some (a, t)) :
    ∃ x, readNumber x = some a ∧ ops = x ++ [',', ' ', if t then 't' else 'n'] := by
  unfold readBranchOperands at h
  split at h
  next x y hsplit =>
    obtain ⟨hops, -⟩ := of_splitAtChar_eq_some hsplit
    split at h
    next hx hy =>
      cases h
      exact ⟨x, hx, by rw [hops, of_readOutcome_eq_some hy]⟩
    next => cases h
  next => cases h

theorem readRdOperands_line {name x : Text} {sel : Sel} {a : Address} (hname : readSelName name = some sel)
    (hcomma : ',' ∉ name) (h : readNumber x = some a) :
    readRdOperands (name ++ [',', ' '] ++ x) = some (sel, a) := by
  have hsplit := splitAtChar_append_cons hcomma (' ' :: x)
  rw [List.append_assoc]
  simp only [readRdOperands, List.cons_append, List.nil_append, hsplit, hname, h]

theorem of_readRdOperands_eq_some {ops : Text} {sel : Sel} {a : Address}
    (h : readRdOperands ops = some (sel, a)) :
    ∃ name x, readSelName name = some sel ∧ readNumber x = some a ∧ ops = name ++ [',', ' '] ++ x := by
  unfold readRdOperands at h
  split at h
  next name x hsplit =>
    obtain ⟨hops, -⟩ := of_splitAtChar_eq_some hsplit
    split at h
    next hname hx =>
      cases h
      exact ⟨name, x, hname, hx, by rw [hops, List.append_assoc]; rfl⟩
    next => cases h
  next => cases h

/-- The six names of R89. -/
theorem of_readSelName_eq_some {name : Text} {sel : Sel} (h : readSelName name = some sel) :
    sel.isReserved = false ∧ ∃ m : String, name = m.toList ∧
      (m = "SMITH_CTR" ∨ m = "GSHARE_TABLE" ∨ m = "CHOOSER" ∨ m = "HYB_GSHARE_TABLE" ∨
        m = "HYB_BIMODAL_TABLE" ∨ m = "GHR") := by
  unfold readSelName at h
  split_ifs at h with h₁ h₂ h₃ h₄ h₅ h₆ <;> cases h
  · exact ⟨rfl, _, h₁, by simp⟩
  · exact ⟨rfl, _, h₂, by simp⟩
  · exact ⟨rfl, _, h₃, by simp⟩
  · exact ⟨rfl, _, h₄, by simp⟩
  · exact ⟨rfl, _, h₅, by simp⟩
  · exact ⟨rfl, _, h₆, by simp⟩

/-! ### The assembler's lines (30_encoding.md R96, R97) -/

/-- A line with a space is its mnemonic and its operands: NOP and DUMP have none. -/
theorem assembleLine_mnemonic (c : Config) {m : Text} (h : ' ' ∉ m) (ops : Text) :
    assembleLine c (m ++ ' ' :: ops) = assembleOperands c m ops := by
  have hspace : ' ' ∈ m ++ ' ' :: ops := by simp
  have hnop : m ++ ' ' :: ops ≠ "NOP".toList := fun heq => absurd (heq ▸ hspace) (by decide)
  have hdump : m ++ ' ' :: ops ≠ "DUMP".toList := fun heq => absurd (heq ▸ hspace) (by decide)
  simp only [assembleLine, if_neg hnop, if_neg hdump, splitAtChar_append_cons h]

section
variable (c : Config) {x : Text} {a : Address} (h : readNumber x = some a)
include h

/-- A PU or BR line is its mnemonic on the operands read. -/
theorem assembleLine_branch {m : String} {command : Address → Bool → Instr} (hm : ' ' ∉ m.toList)
    (hrow : ∀ ops, assembleOperands c m.toList ops = (readBranchOperands ops).map fun p => [command p.1 p.2])
    (t : Bool) :
    assembleLine c (m.toList ++ [' '] ++ x ++ [',', ' ', if t then 't' else 'n']) = some [command a t] := by
  have hline : m.toList ++ [' '] ++ x ++ [',', ' ', if t then 't' else 'n'] =
      m.toList ++ ' ' :: (x ++ [',', ' ', if t then 't' else 'n']) := by simp
  rw [hline, assembleLine_mnemonic c hm, hrow, readBranchOperands_line h, Option.map_some]

theorem assembleLine_rd {name : String} {sel : Sel} (hname : readSelName name.toList = some sel)
    (hcomma : ',' ∉ name.toList) :
    assembleLine c ("RD ".toList ++ name.toList ++ [',', ' '] ++ x) = some [.rd sel false false a] := by
  have hline : "RD ".toList ++ name.toList ++ [',', ' '] ++ x =
      "RD".toList ++ ' ' :: (name.toList ++ [',', ' '] ++ x) := by simp
  have hrow (ops : Text) : assembleOperands c "RD".toList ops =
      (readRdOperands ops).map fun p => [.rd p.1 false false p.2] := rfl
  rw [hline, assembleLine_mnemonic c (by decide), hrow, readRdOperands_line hname hcomma h, Option.map_some]

end

/-- Settles O10: a row's mnemonic ends at the line's first space, and its operands at the number's end. -/
theorem assemblerAcceptsItsRows : Obligations.AssemblerAcceptsItsRows := by
  intro c x a t h line rdLine
  have hbr : assembleLine c (line "BR") = some [branchCommand c a t] :=
    assembleLine_branch c h (command := branchCommand c) (by decide) (fun _ => rfl) t
  refine ⟨rfl,
    assembleLine_branch c h (command := fun a t => .puSmith 0 false t a) (by decide) (fun _ => rfl) t,
    assembleLine_branch c h (command := fun a t => .puGshare 0 false t a) (by decide) (fun _ => rfl) t,
    assembleLine_branch c h (command := fun a t => .puHybrid 0 false t a) (by decide) (fun _ => rfl) t,
    fun hk => ?brSmith, fun hk => ?brTable, fun hk => ?brHybrid,
    assembleLine_rd c h (name := "SMITH_CTR") rfl (by decide),
    assembleLine_rd c h (name := "GSHARE_TABLE") rfl (by decide),
    assembleLine_rd c h (name := "CHOOSER") rfl (by decide),
    assembleLine_rd c h (name := "HYB_GSHARE_TABLE") rfl (by decide),
    assembleLine_rd c h (name := "HYB_BIMODAL_TABLE") rfl (by decide),
    assembleLine_rd c h (name := "GHR") rfl (by decide),
    fun hk => ?dumpSmith, fun hk => ?dumpTable, fun hk => ?dumpHybrid⟩
  case brSmith => rw [hbr, branchCommand_smith hk]
  case brTable => rw [hbr, branchCommand_table hk]
  case brHybrid => rw [hbr, branchCommand_hybrid hk]
  case dumpSmith => exact congrArg some (dumpCommands_smith hk)
  case dumpTable => exact congrArg some (dumpCommands_table hk)
  case dumpHybrid => exact congrArg some (dumpCommands_hybrid hk)

end Sys2Proof.Machine
end

section
namespace Sys2Proof.Machine

/-! ### The shapes of the lines accepted (30_encoding.md R96, R97) -/

theorem wellFormed_of_mem_readAll {sel : Sel} (hsel : sel.isReserved = false) {size : Nat} {i : Instr}
    (hi : i ∈ readAll sel size) : i.wellFormed = true := by
  obtain ⟨k, -, rfl⟩ := List.mem_map.1 hi
  simp [Instr.wellFormed, hsel]

theorem wellFormed_of_mem_dumpCommands {c : Config} {i : Instr} (hi : i ∈ dumpCommands c) :
    i.wellFormed = true := by
  cases hk : c.kind with
  | smith =>
    rw [dumpCommands_smith hk] at hi
    exact wellFormed_of_mem_readAll rfl hi
  | bimodal =>
    rw [dumpCommands_table (.inr hk)] at hi
    exact wellFormed_of_mem_readAll rfl hi
  | gshare =>
    rw [dumpCommands_table (.inl hk)] at hi
    exact wellFormed_of_mem_readAll rfl hi
  | hybrid =>
    rw [dumpCommands_hybrid hk, List.mem_append, List.mem_append] at hi
    obtain (hi | hi) | hi := hi <;> exact wellFormed_of_mem_readAll rfl hi

theorem wellFormed_branchCommand (c : Config) (a : Address) (t : Bool) : (branchCommand c a t).wellFormed = true := by
  unfold branchCommand
  split <;> rfl

/-- A line of a PU command or of BR. -/
def IsBranchLine (cs : Text) : Prop :=
  ∃ (m : String) (x : Text) (a : Address) (t : Bool),
    (m = "PU.SMITH" ∨ m = "PU.GSHARE" ∨ m = "PU.HYBRID" ∨ m = "BR") ∧ readNumber x = some a ∧
    cs = m.toList ++ [' '] ++ x ++ [',', ' ', if t then 't' else 'n']

/-- A line of RD. -/
def IsRdLine (cs : Text) : Prop :=
  ∃ (m : String) (x : Text) (a : Address),
    (m = "SMITH_CTR" ∨ m = "GSHARE_TABLE" ∨ m = "CHOOSER" ∨ m = "HYB_GSHARE_TABLE" ∨
      m = "HYB_BIMODAL_TABLE" ∨ m = "GHR") ∧ readNumber x = some a ∧
    cs = "RD ".toList ++ m.toList ++ [',', ' '] ++ x

section
variable {ops : Text} {is : List Instr}

/-- A PU or BR row's line has the row's shape and assembles to one command. -/
theorem of_branch_row {m : String} (hm : m = "PU.SMITH" ∨ m = "PU.GSHARE" ∨ m = "PU.HYBRID" ∨ m = "BR")
    {command : Address × Bool → Instr} (hwf : ∀ p, (command p).wellFormed = true)
    (h : ((readBranchOperands ops).map fun p => [command p]) = some is) :
    (∀ i ∈ is, i.wellFormed = true) ∧ IsBranchLine (m.toList ++ ' ' :: ops) := by
  obtain ⟨⟨a, t⟩, hops, rfl⟩ := Option.map_eq_some_iff.1 h
  obtain ⟨x, hx, rfl⟩ := of_readBranchOperands_eq_some hops
  exact ⟨by simp [hwf], m, x, a, t, hm, hx, by simp⟩

theorem of_rd_row (h : ((readRdOperands ops).map fun p => [Instr.rd p.1 false false p.2]) = some is) :
    (∀ i ∈ is, i.wellFormed = true) ∧ IsRdLine ("RD".toList ++ ' ' :: ops) := by
  obtain ⟨⟨sel, a⟩, hops, rfl⟩ := Option.map_eq_some_iff.1 h
  obtain ⟨name, x, hname, hx, rfl⟩ := of_readRdOperands_eq_some hops
  obtain ⟨hsel, m, rfl, hm⟩ := of_readSelName_eq_some hname
  exact ⟨by simp [Instr.wellFormed, hsel], m, x, a, hm, hx, by simp⟩

theorem of_assembleOperands_eq_some {c : Config} {m : Text} (h : assembleOperands c m ops = some is) :
    (∀ i ∈ is, i.wellFormed = true) ∧ (IsBranchLine (m ++ ' ' :: ops) ∨ IsRdLine (m ++ ' ' :: ops)) := by
  unfold assembleOperands at h
  split_ifs at h with hsmith hgshare hhybrid hbr hrd
  · subst hsmith
    exact (of_branch_row (by simp) (fun _ => rfl) h).imp_right .inl
  · subst hgshare
    exact (of_branch_row (by simp) (fun _ => rfl) h).imp_right .inl
  · subst hhybrid
    exact (of_branch_row (by simp) (fun _ => rfl) h).imp_right .inl
  · subst hbr
    exact (of_branch_row (by simp) (fun _ => wellFormed_branchCommand c _ _) h).imp_right .inl
  · subst hrd
    exact (of_rd_row h).imp_right .inr

end

/-- Settles O12: a line is NOP, DUMP, or a row's mnemonic, a space and the row's operands. -/
theorem assemblerRefusesOtherLines : Obligations.AssemblerRefusesOtherLines := by
  intro c cs is h
  unfold assembleLine at h
  split_ifs at h with hnop hdump
  · cases h
    exact ⟨by simp [Instr.wellFormed], .inl hnop⟩
  · cases h
    exact ⟨fun i => wellFormed_of_mem_dumpCommands, .inr (.inl hdump)⟩
  · split at h
    next m ops hsplit =>
      obtain ⟨rfl, -⟩ := of_splitAtChar_eq_some hsplit
      exact (of_assembleOperands_eq_some h).imp_right (.inr ∘ .inr)
    next => cases h

/-! ### Trace lines (30_encoding.md R98, R99) -/

/-- A record without the end of its line: its token, one space and its outcome. -/
def recordText (token : Text) (t : Bool) : Text := token ++ [' ', if t then 't' else 'n']

theorem space_not_mem_of_readHex {token : Text} {v : Nat} (h : readHex token = some v) : ' ' ∉ token :=
  not_mem_of_isNumber rfl (by decide) ((readHex_eq_some_iff token v).1 h)

theorem readRecord_recordText {token : Text} {v : Nat} (h : readHex token = some v) (hlen : token.length ≤ 16)
    (t : Bool) : readRecord (recordText token t) = some ⟨BitVec.ofNat 64 v, t⟩ := by
  have hsplit := splitAtChar_append_cons (space_not_mem_of_readHex h) [if t then 't' else 'n']
  simp only [readRecord, recordText, hsplit, if_pos hlen, h, readOutcome_singleton]

theorem of_readRecord_eq_some {body : Text} {r : Record} (h : readRecord body = some r) :
    ∃ token v t, readHex token = some v ∧ token.length ≤ 16 ∧ body = recordText token t := by
  unfold readRecord at h
  split at h
  next token flag hsplit =>
    split_ifs at h with hlen
    split at h
    next v t hv ht =>
      obtain ⟨rfl, -⟩ := of_splitAtChar_eq_some hsplit
      exact ⟨token, v, t, hv, hlen, by rw [recordText, of_readOutcome_eq_some ht]⟩
    next => cases h
  next => cases h

/-- What a line is transcribed to: its record, or its number. -/
def lineResult (n : Nat) (l : TraceLine) : Except Nat Record :=
  match readRecord l.body with
  | some r => .ok r
  | none => .error n

theorem transcribeFrom_cons (n : Nat) (l : TraceLine) (ls : List TraceLine) :
    transcribeFrom n (l :: ls) = lineResult n l :: transcribeFrom (n + 1) ls := rfl

theorem getElem?_transcribeFrom (ls : List TraceLine) : ∀ n k : Nat,
    (transcribeFrom n ls)[k]? = ls[k]?.map (lineResult (n + k)) := by
  induction ls with
  | nil => exact fun _ _ => rfl
  | cons l ls ih =>
    intro n k
    rw [transcribeFrom_cons]
    cases k with
    | zero => rfl
    | succ k =>
      have hnumber : n + 1 + k = n + (k + 1) := by omega
      rw [List.getElem?_cons_succ, List.getElem?_cons_succ, ih, hnumber]

/-- Settles O14: the record of a line is decided by its body alone, and its number is its place from 1 on. -/
theorem badTraceLinesRefused : Obligations.BadTraceLinesRefused := by
  intro stream n l hl
  have hresult : (transcribe stream)[n]? = some (lineResult (n + 1) l) := by
    rw [transcribe, getElem?_transcribeFrom, hl, Option.map_some, Nat.add_comm]
  rw [hresult]
  refine ⟨fun token v t hv hlen hbody => ?_, fun hno => ?_⟩
  · rw [lineResult, hbody, ← recordText, readRecord_recordText hv hlen]
  · cases hread : readRecord l.body with
    | some r =>
      obtain ⟨token, v, t, hv, hlen, hbody⟩ := of_readRecord_eq_some hread
      exact absurd ⟨token, v, t, hv, hlen, hbody⟩ hno
    | none => simp only [lineResult, hread]

/-- The characters up to a newline are one terminated line. -/
theorem traceLinesFrom_line {line : Text} (h : '\n' ∉ line) (rest : Text) : ∀ sofar : Text,
    traceLinesFrom sofar (line ++ '\n' :: rest) = ⟨sofar.reverse ++ line, true⟩ :: traceLinesFrom [] rest := by
  induction line with
  | nil => simp [traceLinesFrom]
  | cons ch line ih =>
    rw [List.mem_cons, not_or] at h
    obtain ⟨hch, hline⟩ := h
    intro sofar
    rw [List.cons_append, traceLinesFrom, if_neg (Ne.symm hch), ih hline]
    simp

/-- The characters after the last newline are one line more. -/
theorem traceLinesFrom_last {line : Text} (h : '\n' ∉ line) : ∀ sofar : Text,
    traceLinesFrom sofar line = if sofar.reverse ++ line = [] then [] else [⟨sofar.reverse ++ line, false⟩] := by
  induction line with
  | nil => simp [traceLinesFrom]
  | cons ch line ih =>
    rw [List.mem_cons, not_or] at h
    obtain ⟨hch, hline⟩ := h
    intro sofar
    rw [traceLinesFrom, if_neg (Ne.symm hch), ih hline]
    simp

theorem newline_not_mem_recordText {token : Text} {v : Nat} (h : readHex token = some v) (t : Bool) :
    '\n' ∉ recordText token t := by
  have htoken : '\n' ∉ token := not_mem_of_isNumber rfl (by decide) ((readHex_eq_some_iff token v).1 h)
  cases t <;> simp [recordText, htoken]

/-- The line of a record in a stream, before its newline. -/
theorem traceLines_traceLineText {token : Text} {v : Nat} (h : readHex token = some v) (t cr : Bool) (rest : Text) :
    traceLines (traceLineText token t cr ++ rest) =
      ⟨recordText token t ++ (if cr then ['\r'] else []), true⟩ :: traceLines rest := by
  have hline : '\n' ∉ recordText token t ++ (if cr then ['\r'] else []) := by
    cases cr <;> simp [newline_not_mem_recordText h]
  have htext : traceLineText token t cr ++ rest =
      (recordText token t ++ (if cr then ['\r'] else [])) ++ '\n' :: rest := by
    cases cr <;> simp [traceLineText, recordText]
  rw [htext, traceLines, traceLinesFrom_line hline]
  rfl

/-- The carriage return is taken off, and the record's last character is none. -/
theorem body_recordText (token : Text) (t cr : Bool) :
    TraceLine.body ⟨recordText token t ++ (if cr then ['\r'] else []), true⟩ = recordText token t := by
  cases cr <;> cases t <;> simp [TraceLine.body, recordText]

theorem lineResult_of_body {token : Text} {v : Nat} (h : readHex token = some v) (hlen : token.length ≤ 16)
    {t : Bool} {l : TraceLine} (hbody : l.body = recordText token t) (n : Nat) :
    lineResult n l = .ok ⟨BitVec.ofNat 64 v, t⟩ := by
  rw [lineResult, hbody, readRecord_recordText h hlen]

/-- A stream of records of the accepted form transcribes to them, and then goes on with what stands behind them. -/
theorem transcribeFrom_records (rest : Text) (ls : List (Text × Nat × Bool × Bool)) : ∀ n : Nat,
    (∀ l ∈ ls, readHex l.1 = some l.2.1 ∧ l.1.length ≤ 16) →
    transcribeFrom n (traceLines ((ls.flatMap fun l => traceLineText l.1 l.2.2.1 l.2.2.2) ++ rest)) =
      (ls.map fun l => (.ok ⟨BitVec.ofNat 64 l.2.1, l.2.2.1⟩ : Except Nat Record)) ++
        transcribeFrom (n + ls.length) (traceLines rest) := by
  induction ls with
  | nil => exact fun _ _ => rfl
  | cons l ls ih =>
    intro n h
    obtain ⟨⟨hv, hlen⟩, hrest⟩ := List.forall_mem_cons.1 h
    have hnumber : n + (l :: ls).length = n + 1 + ls.length := by
      rw [List.length_cons]
      omega
    rw [List.flatMap_cons, List.append_assoc, traceLines_traceLineText hv, transcribeFrom_cons, ih _ hrest,
      lineResult_of_body hv hlen (body_recordText _ _ _), List.map_cons, List.cons_append, hnumber]

/-- A last record that the end of the stream ends. -/
theorem transcribeFrom_recordText {token : Text} {v : Nat} (h : readHex token = some v) (hlen : token.length ≤ 16)
    (t : Bool) (n : Nat) :
    transcribeFrom n (traceLines (recordText token t)) = [.ok ⟨BitVec.ofNat 64 v, t⟩] := by
  have hlines : traceLines (recordText token t) = [⟨recordText token t, false⟩] := by
    rw [traceLines, traceLinesFrom_last (newline_not_mem_recordText h t), if_neg (by simp [recordText])]
    rfl
  rw [hlines, transcribeFrom_cons, lineResult_of_body h hlen rfl]
  rfl

theorem hasFields_encode {i : Instr} {op : BitVec 3} {t : Bool} {a : Address}
    (h : encode i = packWord op 0 false t a) : hasFields (encode i) op.toNat 0 0 t.toNat a.toNat := by
  refine ⟨by decide, by decide, t.toNat_lt, a.isLt, ?_⟩
  rw [h, packWord_toNat]
  rfl

/-- Settles O13: every line of the stream is one record, whether or not a carriage return ends it, and the word of a
record is the PU row of the kind. -/
theorem goodTraceTranscribes : Obligations.GoodTraceTranscribes := by
  refine ⟨?_, fun c r => ⟨fun hk => ?_, fun hk => ?_, fun hk => ?_⟩⟩
  · intro ls token v t hls hv hlen stream records
    have hrun (rest : Text) := transcribeFrom_records rest ls 1 hls
    constructor
    · have hall := hrun []
      rw [List.append_nil] at hall
      exact hall.trans (List.append_nil records)
    · have hall := hrun (recordText token t)
      rwa [transcribeFrom_recordText hv hlen] at hall
  · rw [Record.word, branchCommand_smith hk]
    exact hasFields_encode (op := 0b001#3) rfl
  · rw [Record.word, branchCommand_table hk]
    exact hasFields_encode (op := 0b010#3) rfl
  · rw [Record.word, branchCommand_hybrid hk]
    exact hasFields_encode (op := 0b011#3) rfl

end Sys2Proof.Machine
end
